-- ==== Sys2Proof/Word.lean ====
section
/-! DEFINITION. The word types of the CORE (00_scope.md R9, R11, R12, R14): bytes, 16-bit words and the
instruction fields. Every value is unsigned. -/

namespace Sys2Proof

/-- A memory byte or a general register's content (R9). -/
abbrev Byte := BitVec 8

/-- A 16-bit value: instruction word, I, pc, stack slot (R9, R17). -/
abbrev Word := BitVec 16

/-- The field NNN, a 12-bit address (R14). -/
abbrev Addr12 := BitVec 12

/-- The field N, a 4-bit immediate (R14). -/
abbrev Nibble := BitVec 4

/-- A register number X or Y (R14): V0 to VF. -/
abbrev Reg := Fin 16

/-- Register VF, index 0xF (10_state.md R21). -/
abbrev vf : Reg := 15

end Sys2Proof
end

