-- ==== Sys2Proof/Syntax.lean ====
section
/-! DEFINITION. The 35 instructions of spec/opcode_table.json, one constructor per row, in the table's order.
Operands are already decoded: register numbers, immediates (30_encoding.md R81, R82). -/

namespace Sys2Proof

inductive Instr where
  /-- 00E0 CLS (R160) -/
  | cls
  /-- 00EE RET (R117) -/
  | ret
  /-- 0NNN SYS NNN, every group-0 word except 0x00E0 and 0x00EE (R110) -/
  | sys (nnn : Addr12)
  /-- 1NNN JP NNN (R111) -/
  | jp (nnn : Addr12)
  /-- 2NNN CALL NNN (R112) -/
  | call (nnn : Addr12)
  /-- 3XNN SE Vx, NN (R113) -/
  | seImm (x : Reg) (nn : Byte)
  /-- 4XNN SNE Vx, NN (R114) -/
  | sneImm (x : Reg) (nn : Byte)
  /-- 5XY0 SE Vx, Vy (R115) -/
  | seReg (x y : Reg)
  /-- 6XNN LD Vx, NN (R140) -/
  | ldVxNn (x : Reg) (nn : Byte)
  /-- 7XNN ADD Vx, NN (R141) -/
  | addVxNn (x : Reg) (nn : Byte)
  /-- 8XY0 LD Vx, Vy (R131) -/
  | ldVxVy (x y : Reg)
  /-- 8XY1 OR Vx, Vy (R132) -/
  | orVxVy (x y : Reg)
  /-- 8XY2 AND Vx, Vy (R133) -/
  | andVxVy (x y : Reg)
  /-- 8XY3 XOR Vx, Vy (R134) -/
  | xorVxVy (x y : Reg)
  /-- 8XY4 ADD Vx, Vy (R135) -/
  | addVxVy (x y : Reg)
  /-- 8XY5 SUB Vx, Vy (R136) -/
  | sub (x y : Reg)
  /-- 8XY6 SHR Vx, Vy (R137); Y matters only under SHIFT_SOURCE = vy -/
  | shr (x y : Reg)
  /-- 8XY7 SUBN Vx, Vy (R138) -/
  | subn (x y : Reg)
  /-- 8XYE SHL Vx, Vy (R139); Y matters only under SHIFT_SOURCE = vy -/
  | shl (x y : Reg)
  /-- 9XY0 SNE Vx, Vy (R116) -/
  | sneReg (x y : Reg)
  /-- ANNN LD I, NNN (R150) -/
  | ldI (nnn : Addr12)
  /-- BNNN JP V0, NNN (R118) -/
  | jpV0 (nnn : Addr12)
  /-- CXNN RND Vx, NN (R153) -/
  | rnd (x : Reg) (nn : Byte)
  /-- DXYN DRW Vx, Vy, N (R161) -/
  | drw (x y : Reg) (n : Nibble)
  /-- EX9E SKP Vx (R171) -/
  | skp (x : Reg)
  /-- EXA1 SKNP Vx (R172) -/
  | sknp (x : Reg)
  /-- FX07 LD Vx, DT (R180) -/
  | ldVxDt (x : Reg)
  /-- FX0A LD Vx, K (R173) -/
  | ldVxK (x : Reg)
  /-- FX15 LD DT, Vx (R181) -/
  | ldDtVx (x : Reg)
  /-- FX18 LD ST, Vx (R182) -/
  | ldStVx (x : Reg)
  /-- FX1E ADD I, Vx (R151) -/
  | addI (x : Reg)
  /-- FX29 LD F, Vx (R152) -/
  | ldF (x : Reg)
  /-- FX33 LD B, Vx (R183) -/
  | ldB (x : Reg)
  /-- FX55 LD [I], Vx (R184) -/
  | ldMemVx (x : Reg)
  /-- FX65 LD Vx, [I] (R185) -/
  | ldVxMem (x : Reg)
  deriving DecidableEq, Repr

end Sys2Proof
end

