-- ==== Sys2Proof/Config.lean ====
section
/-! DEFINITION. What an implementation fixes (the named parameters of 00_scope.md R10) and the free value of the
random source (10_state.md R34). The parameters are plain data and stand in State (log entry 1), so a statement
over all states is a statement over all of their values. Their defaults are in Machine/Defaults.lean. -/

namespace Sys2Proof

/-- VF_WRITE_ORDER (R10, 42_alu.md R130): which write comes last when an instruction writes a result and VF. -/
inductive VfWriteOrder where
  | flagLast
  | resultLast
  deriving DecidableEq, Repr

/-- SHIFT_SOURCE (R10, 42_alu.md R137): the register that SHR and SHL shift. -/
inductive ShiftSource where
  | vx
  | vy
  deriving DecidableEq, Repr

/-- BLOCK_I_INCREMENT (R10, 46_timers_bcd_block.md R184): what a block transfer does to I. -/
inductive BlockIncrement where
  | none
  | xPlusOne
  deriving DecidableEq, Repr

/-- KEY_INDEX_POLICY (R10, 45_keypad.md R170): what a key index above 0x0F does. -/
inductive KeyIndexPolicy where
  | fault
  | lowNibble
  deriving DecidableEq, Repr

/-- The parameters of 00_scope.md R10. RAND is `Config.rand`. -/
structure Params where
  /-- UNKNOWN_OPCODE_FATAL -/
  unknownOpcodeFatal : Bool
  /-- VF_WRITE_ORDER -/
  vfWriteOrder : VfWriteOrder
  /-- SHIFT_SOURCE -/
  shiftSource : ShiftSource
  /-- ADDI_OVERFLOW_LIMIT: a number, or none -/
  addiOverflowLimit : Option Nat
  /-- BLOCK_I_INCREMENT -/
  blockIIncrement : BlockIncrement
  /-- KEY_INDEX_POLICY -/
  keyIndexPolicy : KeyIndexPolicy
  /-- FONT: the 80 bytes that Reset copies (20_memory.md R56) -/
  font : Vector Byte 80
  deriving DecidableEq, Repr

/-- FREE VALUE (log entry 2, safe): the byte of the n-th execution of RND, `Rand()` of 00_scope.md R13. It has no
body: nothing constrains it, as 10_state.md R34 asks ("any value 0 to 255, under no law"). -/
opaque Config.rand : Nat → Byte

end Sys2Proof
end

