-- ==== Sys2Proof/Machine/Defaults.lean ====
section
/-! DEFINITION. The defaults of the named parameters (00_scope.md R10), the fixed sizes the rules use (R9) and the
default font (20_memory.md R56). -/

namespace Sys2Proof.Machine

/-- MEM_SIZE (R9): addresses 0x000 to 0xFFF. -/
def memSize : Nat := 4096

/-- LOAD_BASE (R9): where images load and where pc starts. -/
def loadBase : Nat := 0x200

/-- MAX_IMAGE (R9): 4096 - 0x200. -/
def maxImage : Nat := 3584

/-- FONT at its default, the table of 20_memory.md R56: glyphs 0 to F, five bytes each. -/
def fontTable : List Byte :=
  [0xF0, 0x90, 0x90, 0x90, 0xF0] ++
  [0x20, 0x60, 0x20, 0x20, 0x70] ++
  [0xF0, 0x10, 0xF0, 0x80, 0xF0] ++
  [0xF0, 0x10, 0xF0, 0x10, 0xF0] ++
  [0x90, 0x90, 0xF0, 0x10, 0x10] ++
  [0xF0, 0x80, 0xF0, 0x10, 0xF0] ++
  [0xF0, 0x80, 0xF0, 0x90, 0xF0] ++
  [0xF0, 0x10, 0x20, 0x40, 0x40] ++
  [0xF0, 0x90, 0xF0, 0x90, 0xF0] ++
  [0xF0, 0x90, 0xF0, 0x10, 0xF0] ++
  [0xF0, 0x90, 0xF0, 0x90, 0x90] ++
  [0xE0, 0x90, 0xE0, 0x90, 0xE0] ++
  [0xF0, 0x80, 0x80, 0x80, 0xF0] ++
  [0xE0, 0x90, 0x90, 0x90, 0xE0] ++
  [0xF0, 0x80, 0xF0, 0x80, 0xF0] ++
  [0xF0, 0x80, 0xF0, 0x80, 0x80]

/-- The default of every parameter of 00_scope.md R10. -/
def defaultParams : Params where
  unknownOpcodeFatal := false
  vfWriteOrder := .flagLast
  shiftSource := .vx
  addiOverflowLimit := some 0x0FFF
  blockIIncrement := .none
  keyIndexPolicy := .fault
  font := ⟨fontTable.toArray, rfl⟩

/-- What an unlisted address reads as: what mem[a] holds after a reset with the default FONT (10_state.md R38), 0 above
it (log entry 4). -/
def initialByte (a : Nat) : Byte := fontTable.getD a 0

end Sys2Proof.Machine
end

