-- ==== Sys2Proof/Machine/Memory.lean ====
section
/-! DEFINITION. Memory (20_memory.md R50, R63) as plain data: the cells that differ from the reset contents, addresses
rising. An address not listed reads as `initialByte`, its contents after a reset with the default font (log entry 4). -/

namespace Sys2Proof.Machine

/-- Memory as a list of (address, byte) cells. -/
abbrev Memory := List Host.Cell

/-- The canonical form: addresses strictly rising and below 4096, no cell equal to the reset contents. -/
abbrev Memory.wf (m : Memory) : Prop :=
  m.Pairwise (fun c d => c.1 < d.1) ∧ ∀ c ∈ m, c.1 < memSize ∧ c.2 ≠ initialByte c.1

/-- mem[a] (R50). Reading has no side effect (R63). -/
def Memory.read : Memory → Nat → Byte
  | [], a => initialByte a
  | c :: rest, a => if c.1 = a then c.2 else Memory.read rest a

/-- Insert a cell before the first cell of a higher address. -/
def Memory.insertCell : Memory → Host.Cell → Memory
  | [], x => [x]
  | c :: rest, x => if x.1 < c.1 then x :: c :: rest else c :: Memory.insertCell rest x

/-- mem[a] <- v (R63): changes only that byte; a byte equal to its reset contents is not listed. -/
def Memory.write (m : Memory) (a : Nat) (v : Byte) : Memory :=
  let others := m.filter fun c => c.1 != a
  if v = initialByte a then others else Memory.insertCell others (a, v)

/-- Consecutive bytes at a, a + 1, ... (R60). -/
def Memory.readBytes (m : Memory) (a n : Nat) : List Byte := (List.range n).map fun k => m.read (a + k)

/-- Consecutive bytes stored at a, a + 1, ..., in that order (R60, R64). -/
def Memory.writeBytes (m : Memory) (a : Nat) : List Byte → Memory
  | [] => m
  | v :: vs => Memory.writeBytes (m.write a v) (a + 1) vs

/-- The lowest address of base, base + 1, ..., base + n - 1 outside [0, 4096), if there is one: the check of
`MemRead` and `MemWrite` (00_scope.md R13, 20_memory.md R52, 60_exceptions.md R201). Addresses are exact (R60). -/
def lowestOutside (base n : Nat) : Option Nat := ((List.range n).map (base + ·)).find? fun a => memSize ≤ a

end Sys2Proof.Machine
end

