-- ==== Sys2Proof/Machine/State.lean ====
section
/-! DEFINITION. The Machine State (10_state.md), the faults (60_exceptions.md R200) and the state after reset (R38). -/

namespace Sys2Proof.Machine

/-- One UnknownOpcode record of the step result (60_exceptions.md R206, code 4): non-fatal (R204). -/
structure UnknownReport where
  pc : Word
  w : Word
  deriving DecidableEq, Repr

/-- The framebuffer grid, fb[r][c]: 32 rows of 64 one-bit cells (10_state.md R31). -/
abbrev Frame := Vector (Vector Bool 64) 32

/-- The fatal faults of 60_exceptions.md R200, with the information each records. All are the spec's own faults, so
stopping with one is SAFE. -/
inductive Fault where
  /-- Code 1: fetch, DRW, LD B, LD [I] and LD Vx,[I] with a byte at or above 4096; addr is the lowest such address
  and w is absent for a fetch (R200, R201). Safe. -/
  | addressing (addr : Nat) (pc : Word) (w : Option Word)
  /-- Code 2: CALL with sp = 16 (R202). Safe. -/
  | stackOverflow (pc w : Word)
  /-- Code 3: RET with sp = 0 (R202). Safe. -/
  | stackUnderflow (pc w : Word)
  /-- Code 5: SYS, and step on an Unknown word, only when UNKNOWN_OPCODE_FATAL (R204). Safe. -/
  | unknownOpcode (pc w : Word)
  /-- Code 6: SKP and SKNP with a register above 0x0F, only when KEY_INDEX_POLICY = fault (R205). Safe. -/
  | keyIndex (pc w : Word) (value : Byte)
  deriving DecidableEq, Repr

/-- Why an instruction has no meaning. -/
inductive Refusal where
  /-- Raised only by an arm of exec whose instruction is not modelled yet; no arm is. Safe. -/
  | notModelled (mnemonic : String)
  deriving DecidableEq, Repr

/-- The Machine State: everything 10_state.md and 20_memory.md give the machine, and three fields of the model's own
(params, draws, report: log entries 1, 2, 3). -/
structure State where
  /-- V0 to VF (R20) -/
  v : Vector Byte 16
  /-- the index register I (R23) -/
  i : Word
  /-- the program counter (R24) -/
  pc : Word
  /-- the call stack, stack[0] to stack[15] (R27) -/
  stack : Vector Word 16
  /-- the stack pointer, "the next free slot", 0 to 16 (R28; log entry 8) -/
  sp : Fin 17
  /-- the delay timer (R29) -/
  dt : Byte
  /-- the sound timer (R30) -/
  st : Byte
  /-- the 4096 bytes of memory (20_memory.md R50) -/
  mem : Memory
  /-- the framebuffer (R31) -/
  fb : Frame
  /-- the keypad flags, true when pressed (R32) -/
  key : Vector Bool 16
  /-- the redraw flag (R33) -/
  redraw : Bool
  /-- the named parameters of 00_scope.md R10: never changed by any operation -/
  params : Params
  /-- how many random bytes have been drawn: the argument of the free value `Config.rand` -/
  draws : Nat
  /-- the UnknownOpcode record of the last step (60_exceptions.md R206), if it made one -/
  report : Option UnknownReport
  deriving DecidableEq, Repr

/-- The result type of every meaning and of the step. -/
abbrev Result := Host.Outcome State Fault Refusal

/-- The state right after reset (10_state.md R38, 70_reset_and_hazards.md R230). -/
def State.reset : State where
  v := Vector.replicate 16 0
  i := 0
  pc := 0x200
  stack := Vector.replicate 16 0
  sp := 0
  dt := 0
  st := 0
  mem := []
  fb := Vector.replicate 32 (Vector.replicate 64 false)
  key := Vector.replicate 16 false
  redraw := false
  params := defaultParams
  draws := 0
  report := none

end Sys2Proof.Machine
end

