-- ==== Sys2Proof/Machine/Ops.lean ====
section
/-! DEFINITION. The named operations over registers, pc, stack and memory that the meanings share, the step entry, the
fetch, and the unknown-opcode path. The machine has no trap entry and no return from one (60_exceptions.md R208, R210):
raising a fault ends the step, and `State.beginStep` of the state before the step is what remains (R203). -/

namespace Sys2Proof.Machine

/-- x[r] (00_scope.md R13). -/
def State.reg (s : State) (r : Reg) : Byte := s.v[r]

/-- x[r] <- b (00_scope.md R13). VF is an ordinary slot (10_state.md R21). -/
def State.setReg (s : State) (r : Reg) (b : Byte) : State := { s with v := s.v.set r b }

/-- pc <- target (41_control.md R119). -/
def State.jumpTo (s : State) (target : Word) : State := { s with pc := target }

/-- pc <- pc + 2 (10_state.md R25; log entry 7). -/
def State.advance (s : State) : State := { s with pc := s.pc + 2 }

/-- A skip (10_state.md R25): pc + 4 when the condition holds, else pc + 2. The skipped word is not fetched. -/
def State.skipIf (s : State) (c : Bool) : State := { s with pc := if c then s.pc + 4 else s.pc + 2 }

/-- The push of CALL (41_control.md R112): stack[sp] <- pc; sp <- sp + 1. -/
def State.pushPc (s : State) (h : s.sp.val < 16) : State :=
  { s with stack := s.stack.set s.sp.val s.pc, sp := ⟨s.sp.val + 1, by omega⟩ }

/-- The pop of RET (41_control.md R117): sp <- sp - 1; pc <- stack[sp] + 2. The slot keeps its value. -/
def State.popPc (s : State) (_h : 0 < s.sp.val) : State :=
  { s with sp := ⟨s.sp.val - 1, by omega⟩, pc := s.stack[s.sp.val - 1] + 2 }

/-- The step entry (30_encoding.md R83): redraw <- false; the step result starts without a report (log entry 3).
It is also the state a faulting step leaves (60_exceptions.md R203). -/
def State.beginStep (s : State) : State := { s with redraw := false, report := none }

/-- `MemRead(pc, 2)` (30_encoding.md R83, 20_memory.md R54): big-endian, or the fetch fault, which carries no word. -/
def State.fetch (s : State) : Except Fault Word :=
  match lowestOutside s.pc.toNat 2 with
  | some a => .error (.addressing a s.pc none)
  | none => .ok (wordOfBytes (s.mem.read s.pc.toNat) (s.mem.read (s.pc.toNat + 1)))

/-- The check before a data access of n bytes at I, I + 1, ... by the instruction w (20_memory.md R52, R60): a byte
outside memory raises AddressingFault with the lowest such address, and nothing else happens. -/
def State.checkData (s : State) (w : Word) (n : Nat) (access : Result) : Result :=
  match lowestOutside s.i.toNat n with
  | some a => .fault (.addressing a s.pc (some w))
  | none => access

/-- The data bytes at I, I + 1, ..., I + n - 1 (20_memory.md R60). -/
def State.dataBytes (s : State) (n : Nat) : List Byte := s.mem.readBytes s.i.toNat n

/-- Store bytes at I, I + 1, ... (20_memory.md R60). -/
def State.storeData (s : State) (bytes : List Byte) : State := { s with mem := s.mem.writeBytes s.i.toNat bytes }

/-- The unknown-opcode path (30_encoding.md R92, 60_exceptions.md R204): report and continue at pc + 2, or the fatal
fault when UNKNOWN_OPCODE_FATAL. -/
def unknownOpcode (w : Word) (s : State) : Result :=
  if s.params.unknownOpcodeFatal then .fault (.unknownOpcode s.pc w)
  else .next { s with report := some ⟨s.pc, w⟩, pc := s.pc + 2 }

/-- Store two bytes, an instruction's word, where the next fetch reads them; nothing where they do not both lie in
memory. -/
def State.placeBytes (s : State) (bytes : List Byte) : State :=
  match lowestOutside s.pc.toNat bytes.length with
  | some _ => s
  | none => { s with mem := s.mem.writeBytes s.pc.toNat bytes }

end Sys2Proof.Machine
end

