-- ==== Sys2Proof/Machine/Flags.lean ====
section
/-! DEFINITION. The flag values written to VF (10_state.md R22) and the order of result and flag (42_alu.md R130). -/

namespace Sys2Proof.Machine

/-- A condition as the byte 0 or 1. -/
def flagByte (c : Bool) : Byte := if c then 1 else 0

/-- Carry of an 8-bit sum (42_alu.md R135): the sum exceeds 0xFF. -/
def carryFlag (a b : Byte) : Byte := flagByte (decide (0xFF < a.toNat + b.toNat))

/-- Not-borrow (42_alu.md R136, R138): the minuend is at least the subtrahend, non-strict (90_conflicts.md C2). -/
def notBorrowFlag (minuend subtrahend : Byte) : Byte := flagByte (decide (subtrahend.toNat ≤ minuend.toNat))

/-- The bit SHR shifts out (42_alu.md R137): v & 1. -/
def shiftRightFlag (v : Byte) : Byte := v &&& 1

/-- The bit SHL shifts out (42_alu.md R139): v >> 7. -/
def shiftLeftFlag (v : Byte) : Byte := v >>> 7

/-- Index overflow (43_index_random.md R151): the exact sum exceeds the limit. -/
def indexOverflowFlag (limit : Nat) (i : Word) (v : Byte) : Byte := flagByte (decide (limit < i.toNat + v.toNat))

/-- Write a result to x[X] and a flag to VF in the order of VF_WRITE_ORDER (42_alu.md R130). -/
def State.setResultAndFlag (s : State) (x : Reg) (result flag : Byte) : State :=
  match s.params.vfWriteOrder with
  | .flagLast => (s.setReg x result).setReg vf flag
  | .resultLast => (s.setReg vf flag).setReg x result

/-- VF after ADD I, Vx (43_index_random.md R151): written only when ADDI_OVERFLOW_LIMIT is a number. -/
def State.setIndexFlag (s : State) (i : Word) (v : Byte) : State :=
  match s.params.addiOverflowLimit with
  | none => s
  | some limit => s.setReg vf (indexOverflowFlag limit i v)

end Sys2Proof.Machine
end

