-- ==== Sys2Proof/Machine/Operands.lean ====
section
/-! DEFINITION. The operand forms (30_encoding.md R82) and the operands that a rule computes from the state. -/

namespace Sys2Proof.Machine

/-- `zext_16(NNN)`: an absolute 12-bit address as a pc or I value (R82). -/
def addrOperand (nnn : Addr12) : Word := nnn.setWidth 16

/-- `zext_16(NNN) + x[0]` (41_control.md R118). -/
def State.jumpV0Target (s : State) (nnn : Addr12) : Word := addrOperand nnn + (s.reg 0).setWidth 16

/-- The register that SHR and SHL shift (42_alu.md R137, R139): SHIFT_SOURCE. -/
def State.shiftOperand (s : State) (x y : Reg) : Byte :=
  match s.params.shiftSource with
  | .vx => s.reg x
  | .vy => s.reg y

/-- `KeyIndex(v)` of 45_keypad.md R170; none is its KeyIndexFault. -/
def keyIndex (policy : KeyIndexPolicy) (v : Byte) : Option (Fin 16) :=
  if h : v.toNat < 16 then some ⟨v.toNat, h⟩
  else match policy with
    | .fault => none
    | .lowNibble => some (Fin.ofNat 16 v.toNat)

/-- The lowest pressed key (45_keypad.md R173). -/
def State.firstKey (s : State) : Option Nat := s.key.toList.findIdx? id

/-- The address of the glyph of a register's low nibble (43_index_random.md R152): 5 * (x[X] & 0x0F). -/
def glyphAddress (v : Byte) : Word := 5 * (v &&& 0x0F).setWidth 16

/-- The hundreds, tens and ones digits of a byte (46_timers_bcd_block.md R183). -/
def bcdDigits (v : Byte) : List Byte :=
  [BitVec.ofNat 8 (v.toNat / 100), BitVec.ofNat 8 (v.toNat / 10 % 10), BitVec.ofNat 8 (v.toNat % 10)]

/-- x[0], ..., x[X], the operand of a block store (46_timers_bcd_block.md R184). -/
def State.regBlock (s : State) (x : Reg) : List Byte := s.v.toList.take (x.val + 1)

/-- x[k] <- t[k] for k in 0 .. X, the destination of a block load (46_timers_bcd_block.md R185). -/
def State.setRegBlock (s : State) (t : List Byte) : State := { s with v := s.v.mapIdx fun k old => t.getD k old }

/-- I after a block transfer of x[0] to x[X] (46_timers_bcd_block.md R184, R185): BLOCK_I_INCREMENT. -/
def State.blockIndex (s : State) (x : Reg) : State :=
  match s.params.blockIIncrement with
  | .none => s
  | .xPlusOne => { s with i := BitVec.ofNat 16 (s.i.toNat + x.val + 1) }

end Sys2Proof.Machine
end

