-- ==== Sys2Proof/Machine/Control.lean ====
section
/-! DEFINITION. Control transfer and skips (41_control.md R110 to R119). -/

namespace Sys2Proof.Machine

/-- SYS NNN (R110): the unknown-opcode path of 30_encoding.md R92. -/
def execSys (nnn : Addr12) (s : State) : Result := unknownOpcode (encode (.sys nnn)) s

/-- JP NNN (R111). -/
def execJp (nnn : Addr12) (s : State) : Result := .next (s.jumpTo (addrOperand nnn))

/-- CALL NNN (R112): StackOverflow when sp = 16. -/
def execCall (nnn : Addr12) (s : State) : Result :=
  if h : s.sp.val < 16 then .next ((s.pushPc h).jumpTo (addrOperand nnn))
  else .fault (.stackOverflow s.pc (encode (.call nnn)))

/-- SE Vx, NN (R113). -/
def execSeImm (x : Reg) (nn : Byte) (s : State) : Result := .next (s.skipIf (s.reg x == nn))

/-- SNE Vx, NN (R114). -/
def execSneImm (x : Reg) (nn : Byte) (s : State) : Result := .next (s.skipIf (s.reg x != nn))

/-- SE Vx, Vy (R115). -/
def execSeReg (x y : Reg) (s : State) : Result := .next (s.skipIf (s.reg x == s.reg y))

/-- SNE Vx, Vy (R116). -/
def execSneReg (x y : Reg) (s : State) : Result := .next (s.skipIf (s.reg x != s.reg y))

/-- RET (R117): StackUnderflow when sp = 0. -/
def execRet (s : State) : Result :=
  if h : 0 < s.sp.val then .next (s.popPc h)
  else .fault (.stackUnderflow s.pc (encode .ret))

/-- JP V0, NNN (R118). -/
def execJpV0 (nnn : Addr12) (s : State) : Result := .next (s.jumpTo (s.jumpV0Target nnn))

end Sys2Proof.Machine
end

