-- ==== Sys2Proof/Machine/Display.lean ====
section
/-! DEFINITION. Display clear and sprite draw (44_display.md R160, R161) over the grid fb[r][c] of 10_state.md R31. -/

namespace Sys2Proof.Machine

/-- A cell: row r in [0, 32) and column c in [0, 64) (10_state.md R31). -/
abbrev Pixel := Fin 32 × Fin 64

/-- fb[r][c]. -/
def Frame.get (f : Frame) (p : Pixel) : Bool := f[p.1][p.2]

/-- fb[r][c] <- fb[r][c] ^ 1. -/
def Frame.flip (f : Frame) (p : Pixel) : Frame := f.set p.1 (f[p.1].set p.2 (!f[p.1][p.2]))

/-- Every cell 0. -/
def Frame.clear : Frame := Vector.replicate 32 (Vector.replicate 64 false)

/-- The cells of the set bits of one sprite row, in the order b = 0 .. 7, where b = 0 is bit 7 (R161): row r,
columns (ox + b) mod 64. -/
def rowPixels (ox : Byte) (r : Fin 32) (row : Byte) : List Pixel :=
  ((List.range 8).filter fun b => row.getLsbD (7 - b)).map fun b => (r, Fin.ofNat 64 (ox.toNat + b))

/-- The cells of the set bits of the sprite rows k, k + 1, ..., in the order of R161; row k is at (oy + k) mod 32. -/
def spritePixels (ox oy : Byte) : Nat → List Byte → List Pixel
  | _, [] => []
  | k, row :: rows => rowPixels ox (Fin.ofNat 32 (oy.toNat + k)) row ++ spritePixels ox oy (k + 1) rows

/-- One cell of the inner loop of R161: collide is set if the cell was 1, then the cell is flipped. -/
def drawPixel (acc : Frame × Bool) (p : Pixel) : Frame × Bool := (acc.1.flip p, acc.2 || acc.1.get p)

/-- The loop of R161 over all cells, from collide = 0. -/
def drawPixels (f : Frame) (ps : List Pixel) : Frame × Bool := ps.foldl drawPixel (f, false)

/-- The sprite of N bytes at I with origin column Vx and row Vy (R161), drawn into fb. -/
def State.drawSprite (s : State) (x y : Reg) (n : Nat) : Frame × Bool :=
  drawPixels s.fb (spritePixels (s.reg x) (s.reg y) 0 (s.dataBytes n))

/-- CLS (R160). -/
def execCls (s : State) : Result := .next { s with fb := Frame.clear, redraw := true }.advance

/-- DRW Vx, Vy, N (R161): all reads are checked first; VF is written after every pixel. -/
def execDrw (x y : Reg) (n : Nibble) (s : State) : Result :=
  s.checkData (encode (.drw x y n)) n.toNat
    (.next ({ s with fb := (s.drawSprite x y n.toNat).1, redraw := true }.setReg vf
      (flagByte (s.drawSprite x y n.toNat).2)).advance)

end Sys2Proof.Machine
end

