-- ==== Sys2Proof/Machine/IndexRandom.lean ====
section
/-! DEFINITION. Index register and random instructions (43_index_random.md R150 to R153). -/

namespace Sys2Proof.Machine

/-- LD I, NNN (R150). -/
def execLdI (nnn : Addr12) (s : State) : Result := .next { s with i := addrOperand nnn }.advance

/-- ADD I, Vx (R151): I wraps at 16 bits, VF from the exact sum of the old values. -/
def execAddI (x : Reg) (s : State) : Result :=
  .next ({ s with i := s.i + (s.reg x).setWidth 16 }.setIndexFlag s.i (s.reg x)).advance

/-- LD F, Vx (R152). -/
def execLdF (x : Reg) (s : State) : Result := .next { s with i := glyphAddress (s.reg x) }.advance

/-- RND Vx, NN (R153): a fresh draw of the free value on each execution (log entry 2). -/
def execRnd (x : Reg) (nn : Byte) (s : State) : Result :=
  .next ({ s with draws := s.draws + 1 }.setReg x (Config.rand s.draws &&& nn)).advance

end Sys2Proof.Machine
end

