-- ==== Sys2Proof/Machine/Keypad.lean ====
section
/-! DEFINITION. Keypad instructions (45_keypad.md R170 to R173). -/

namespace Sys2Proof.Machine

/-- The skip of SKP and SKNP (R170 to R172): the flag that Vx names is compared with `pressed`; a value that names no
flag raises KeyIndexFault. -/
def skipOnKey (x : Reg) (pressed : Bool) (w : Word) (s : State) : Result :=
  match keyIndex s.params.keyIndexPolicy (s.reg x) with
  | some k => .next (s.skipIf (s.key[k] == pressed))
  | none => .fault (.keyIndex s.pc w (s.reg x))

/-- SKP Vx (R171). -/
def execSkp (x : Reg) (s : State) : Result := skipOnKey x true (encode (.skp x)) s

/-- SKNP Vx (R172). -/
def execSknp (x : Reg) (s : State) : Result := skipOnKey x false (encode (.sknp x)) s

/-- LD Vx, K (R173): with no key pressed nothing changes, so the next step tries it again. -/
def execLdVxK (x : Reg) (s : State) : Result :=
  match s.firstKey with
  | some k => .next (s.setReg x (BitVec.ofNat 8 k)).advance
  | none => .next s

end Sys2Proof.Machine
end

