-- ==== Sys2Proof/Machine/TimersBlock.lean ====
section
/-! DEFINITION. Timer, BCD and register block instructions (46_timers_bcd_block.md R180 to R185). -/

namespace Sys2Proof.Machine

/-- LD Vx, DT (R180). -/
def execLdVxDt (x : Reg) (s : State) : Result := .next (s.setReg x s.dt).advance

/-- LD DT, Vx (R181). -/
def execLdDtVx (x : Reg) (s : State) : Result := .next { s with dt := s.reg x }.advance

/-- LD ST, Vx (R182): never signals the audio edge. -/
def execLdStVx (x : Reg) (s : State) : Result := .next { s with st := s.reg x }.advance

/-- LD B, Vx (R183): all three addresses are checked before any write. -/
def execLdB (x : Reg) (s : State) : Result :=
  s.checkData (encode (.ldB x)) 3 (.next (s.storeData (bcdDigits (s.reg x))).advance)

/-- LD [I], Vx (R184): all addresses are checked before any write. -/
def execLdMemVx (x : Reg) (s : State) : Result :=
  s.checkData (encode (.ldMemVx x)) (x.val + 1) (.next ((s.storeData (s.regBlock x)).blockIndex x).advance)

/-- LD Vx, [I] (R185): all reads, and all checks, come first. -/
def execLdVxMem (x : Reg) (s : State) : Result :=
  s.checkData (encode (.ldVxMem x)) (x.val + 1)
    (.next ((s.setRegBlock (s.dataBytes (x.val + 1))).blockIndex x).advance)

end Sys2Proof.Machine
end

