-- ==== Sys2Proof/Machine/Step.lean ====
section
/-! DEFINITION. The step cycle (30_encoding.md R83): clear redraw, fetch, decode, execute. -/

namespace Sys2Proof.Machine

/-- `Step()` of R83. A word that decodes to nothing takes the unknown-opcode path (R92). -/
def step (s : State) : Host.Outcome State Fault Refusal :=
  match s.beginStep.fetch with
  | .error f => .fault f
  | .ok w =>
    match decodeWord w with
    | .ok i => exec i s.beginStep
    | .error _ => unknownOpcode w s.beginStep

/-- s with a table word's bytes stored at pc, where the next step fetches them (log entry 12). -/
def State.withFetchWord (s : State) (nbits w : Nat) : State := s.placeBytes (tableBytes nbits w)

end Sys2Proof.Machine
end

