-- ==== Sys2Proof/Machine/Devices.lean ====
section
/-! DEFINITION. The operations other than Step that reach the Machine State: reset and image load (70_reset_and_hazards.md
R230, R236), the timer tick (60_exceptions.md R214) and the key-event hook (R218). -/

namespace Sys2Proof.Machine

/-- Memory after reset (R230): FONT at 0x000 to 0x04F, 0 elsewhere. -/
def resetMemory (p : Params) : Memory := Memory.writeBytes [] 0 p.font.toList

/-- `Reset()` (R230). The parameters are fixed for the machine, and the draws go on: the seed is unspecified (log
entry 2). -/
def State.resetAll (s : State) : State :=
  { State.reset with mem := resetMemory s.params, params := s.params, draws := s.draws }

/-- `LoadImage(b)` (R236): refused whole when longer than 3584 bytes. -/
def State.loadImage (s : State) (image : List Byte) : Option State :=
  if maxImage < image.length then none else some { s with mem := s.mem.writeBytes loadBase image }

/-- A timer's decrement, with its floor at 0 (R214). -/
def countDown (t : Byte) : Byte := if t = 0 then 0 else t - 1

/-- `Tick()` (R214): both timers, and nothing else. -/
def State.tick (s : State) : State := { s with dt := countDown s.dt, st := countDown s.st }

/-- The event a tick emits (R214, R215): SoundEdge, exactly on the 1 to 0 transition of st. -/
def State.soundEdge (s : State) : Bool := s.st == 1

/-- `SetKey(k, pressed)` (R218). -/
def State.setKey (s : State) (k : Fin 16) (pressed : Bool) : State := { s with key := s.key.set k pressed }

end Sys2Proof.Machine
end

