-- ==== Sys2Proof/Machine/Ports.lean ====
section
/-! DEFINITION. The CORE's ports as atomic transactions (60_exceptions.md R224) and the step result (R206). A driver's
schedule is a list of port operations, so every interleaving of 20_memory.md R65 is a list (log entry 5). -/

namespace Sys2Proof.Machine

/-- The codes of the faults (60_exceptions.md R200). -/
def Fault.code : Fault → Nat
  | .addressing _ _ _ => 1
  | .stackOverflow _ _ => 2
  | .stackUnderflow _ _ => 3
  | .unknownOpcode _ _ => 5
  | .keyIndex _ _ _ => 6

/-- The code of an UnknownOpcode report (R200). -/
def UnknownReport.code (_ : UnknownReport) : Nat := 4

/-- An operation at a port (R224). -/
inductive Port where
  | reset
  | loadImage (image : List Byte)
  | step
  | tick
  | setKey (k : Fin 16) (pressed : Bool)
  | readFramebuffer
  | readRedraw
  deriving DecidableEq, Repr

/-- What a port answers (R224); a step's answer is the StepResult of R206. -/
inductive Reply where
  /-- Reset, SetKey: no result -/
  | done
  /-- LoadImage: ok -/
  | loaded
  /-- LoadImage: refused -/
  | loadRefused
  /-- Step: Completed, with 0 or 1 reports -/
  | stepCompleted (reports : List UnknownReport)
  /-- Step: Faulted -/
  | stepFaulted (f : Fault)
  /-- Step: an instruction without a meaning; no step answers so -/
  | stepRefused (r : Refusal)
  /-- Tick: whether SoundEdge was emitted -/
  | ticked (soundEdge : Bool)
  /-- ReadFramebuffer: all 32 × 64 cells -/
  | frame (fb : Frame)
  /-- ReadRedraw: the redraw flag -/
  | redrawFlag (redraw : Bool)
  deriving DecidableEq, Repr

/-- The code of a step's answer (R200, R206): 0, none, for a step that completed, and the fault's code for one that
faulted. The other answers carry no code. -/
def Reply.stepCode : Reply → Option Nat
  | .stepCompleted _ => some 0
  | .stepFaulted f => some f.code
  | .stepRefused _ | .done | .loaded | .loadRefused | .ticked _ | .frame _ | .redrawFlag _ => none

/-- One transaction: the answer and the state after it. A faulting step leaves the state of its entry (R203). -/
def transact (p : Port) (s : State) : Reply × State :=
  match p with
  | .reset => (.done, s.resetAll)
  | .loadImage image =>
    match s.loadImage image with
    | some t => (.loaded, t)
    | none => (.loadRefused, s)
  | .step =>
    match step s with
    | .next t => (.stepCompleted t.report.toList, t)
    | .fault f => (.stepFaulted f, s.beginStep)
    | .refused r => (.stepRefused r, s)
  | .tick => (.ticked s.soundEdge, s.tick)
  | .setKey k pressed => (.done, s.setKey k pressed)
  | .readFramebuffer => (.frame s.fb, s)
  | .readRedraw => (.redrawFlag s.redraw, s)

/-- The state after a schedule of operations (20_memory.md R65). -/
def runPorts : List Port → State → State
  | [], s => s
  | p :: ps, s => runPorts ps (transact p s).2

/-- A driver that never stops: its n-th operation (60_exceptions.md R217). -/
abbrev Schedule := Nat → Port

/-- The state before the n-th operation of an endless schedule. -/
def stateAt (sched : Schedule) (s : State) : Nat → State
  | 0 => s
  | n + 1 => (transact (sched n) (stateAt sched s n)).2

end Sys2Proof.Machine
end

