-- ==== Sys2Proof/Safety.lean ====
section
/-! DEFINITION. The terms the statements use: the parts of the Machine State and what leaving a part unchanged means, the
invariant of the machine, and a terminal state. -/

namespace Sys2Proof.Machine

/-- A piece of the Machine State, as the rules of spec/ name it (10_state.md R38), and the model's own three. -/
inductive Part where
  | reg (r : Reg)
  | index
  | pc
  | slot (k : Fin 16)
  | sp
  | dt
  | st
  | byte (a : Nat)
  | cell (p : Pixel)
  | key (k : Fin 16)
  | redraw
  | params
  | draws
  | report
  deriving DecidableEq, Repr

/-- The part has the same content in both states; memory is compared by reading one byte. -/
def SamePart (s t : State) : Part → Prop
  | .reg r => t.reg r = s.reg r
  | .index => t.i = s.i
  | .pc => t.pc = s.pc
  | .slot k => t.stack[k] = s.stack[k]
  | .sp => t.sp = s.sp
  | .dt => t.dt = s.dt
  | .st => t.st = s.st
  | .byte a => t.mem.read a = s.mem.read a
  | .cell p => t.fb.get p = s.fb.get p
  | .key k => t.key[k] = s.key[k]
  | .redraw => t.redraw = s.redraw
  | .params => t.params = s.params
  | .draws => t.draws = s.draws
  | .report => t.report = s.report

/-- Every part but those of `written` is unchanged from s to t. -/
def OnlyChanges (written : Part → Prop) (s t : State) : Prop := ∀ p, ¬ written p → SamePart s t p

/-- The invariant of the machine: memory is canonical, pc is at most 0x10FE (10_state.md R26), and every saved address
on the live stack is that of a CALL that was fetched in bounds, at most 0xFFE (41_control.md R117). -/
structure State.Inv (s : State) : Prop where
  memory : s.mem.wf
  pcBound : s.pc.toNat ≤ 0x10FE
  savedBound : ∀ k : Fin 16, k.val < s.sp.val → s.stack[k].toNat ≤ 0xFFE

/-- Both bytes of an instruction at pc lie in memory (30_encoding.md R83). -/
abbrev State.Fetchable (s : State) : Prop := s.pc.toNat + 1 < memSize

/-- The word at pc, big-endian (20_memory.md R54). -/
def State.wordAtPc (s : State) : Nat := (s.mem.read s.pc.toNat).toNat * 256 + (s.mem.read (s.pc.toNat + 1)).toNat

/-- The step at s fetches and decodes the instruction i (30_encoding.md R83). -/
def State.Fetches (s : State) (i : Instr) : Prop := s.Fetchable ∧ decodeWord (BitVec.ofNat 16 s.wordAtPc) = .ok i

/-- The words that decode to Unknown, SYS among them, as 30_encoding.md R85 to R89 list them. -/
abbrev UnknownWord (w : Nat) : Prop :=
  (w / 4096 = 0x0 ∧ w ≠ 0x00E0 ∧ w ≠ 0x00EE) ∨
  (w / 4096 = 0x5 ∧ w % 16 ≠ 0) ∨
  (w / 4096 = 0x8 ∧ w % 16 ∉ [0x0, 0x1, 0x2, 0x3, 0x4, 0x5, 0x6, 0x7, 0xE]) ∨
  (w / 4096 = 0x9 ∧ w % 16 ≠ 0) ∨
  (w / 4096 = 0xE ∧ w % 256 ∉ [0x9E, 0xA1]) ∨
  (w / 4096 = 0xF ∧ w % 256 ∉ [0x07, 0x0A, 0x15, 0x18, 0x1E, 0x29, 0x33, 0x55, 0x65])

/-- Every piece of state has its value after reset (10_state.md R38); the model's own fields are not named. -/
structure State.HasResetValues (s : State) : Prop where
  registers : ∀ r, s.reg r = 0
  index : s.i = 0
  entry : s.pc.toNat = 0x200
  emptyStack : s.sp.val = 0
  slots : ∀ k : Fin 16, s.stack[k] = 0
  font : ∀ k : Fin 80, s.mem.read k.val = s.params.font[k]
  zeros : ∀ a, 80 ≤ a → s.mem.read a = 0
  timers : s.dt = 0 ∧ s.st = 0
  framebuffer : ∀ p, s.fb.get p = false
  keypad : ∀ k : Fin 16, s.key[k] = false
  redraw : s.redraw = false

/-- x[X] and VF after an instruction that writes a result and a flag (42_alu.md R130): with X = F the write that comes
last survives. -/
def State.HasResultAndFlag (t : State) (order : VfWriteOrder) (x : Reg) (result flag : Nat) : Prop :=
  (x ≠ vf → (t.reg x).toNat = result ∧ (t.reg vf).toNat = flag) ∧
  (x = vf → (t.reg vf).toNat = match order with
    | .flagLast => flag
    | .resultLast => result)

/-- The register SHR and SHL shift (42_alu.md R137), as a number. -/
def State.shifted (s : State) (x y : Reg) : Nat :=
  match s.params.shiftSource with
  | .vx => (s.reg x).toNat
  | .vy => (s.reg y).toNat

/-- a is the lowest address of base .. base + n - 1 at or above 4096 (60_exceptions.md R201). -/
def LowestOutside (base n a : Nat) : Prop :=
  base ≤ a ∧ a < base + n ∧ 4096 ≤ a ∧ ∀ b, base ≤ b → b < a → b < 4096

/-- A set bit of the sprite of n bytes at I, with origin column Vx and row Vy, falls on the cell p (44_display.md
R161). -/
def State.Covers (s : State) (x y : Reg) (n : Nibble) (p : Pixel) : Prop :=
  ∃ k < n.toNat, ∃ b < 8, (s.mem.read (s.i.toNat + k)).getLsbD (7 - b) = true ∧
    p.1.val = ((s.reg y).toNat + k) % 32 ∧ p.2.val = ((s.reg x).toNat + b) % 64

/-- I after a block transfer of x[0] to x[X] (46_timers_bcd_block.md R184, R185). -/
def State.IndexAfterBlock (s t : State) (x : Reg) : Prop :=
  match s.params.blockIIncrement with
  | .none => t.i = s.i
  | .xPlusOne => t.i.toNat = (s.i.toNat + x.val + 1) % 65536

/-- The key that SKP and SKNP test is key[k] (45_keypad.md R170). -/
abbrev State.TestsKey (s : State) (x : Reg) (k : Fin 16) : Prop :=
  (s.reg x).toNat = k.val ∨ (s.params.keyIndexPolicy = .lowNibble ∧ (s.reg x).toNat % 16 = k.val)

/-- The terminal state of 70_reset_and_hazards.md R244: pc holds a word 1NNN with NNN = pc. -/
abbrev State.Terminal (s : State) : Prop := s.Fetchable ∧ s.wordAtPc = 0x1000 + s.pc.toNat

/-- The fairness assumption on the driver (60_exceptions.md R217): it keeps calling tick, so after every operation there
is a later tick. -/
def FairTicks (sched : Schedule) : Prop := ∀ n, ∃ m, n ≤ m ∧ sched m = .tick

/-- In the run of the schedule from s, no step writes the delay timer. -/
def NoDelayWrite (sched : Schedule) (s : State) : Prop :=
  ∀ n, sched n = .step → ∀ x, ¬ (stateAt sched s n).Fetches (.ldDtVx x)

/-- The instruction i at s stores the byte b at a: LD B its three digits, LD [I], Vx its registers
(46_timers_bcd_block.md R183, R184). -/
def State.StoresByte (s : State) (i : Instr) (a : Nat) (b : Byte) : Prop :=
  (∃ x, i = .ldB x ∧
    ((a = s.i.toNat ∧ b.toNat = (s.reg x).toNat / 100) ∨
      (a = s.i.toNat + 1 ∧ b.toNat = (s.reg x).toNat / 10 % 10) ∨
      (a = s.i.toNat + 2 ∧ b.toNat = (s.reg x).toNat % 10))) ∨
  ∃ x k, i = .ldMemVx x ∧ k ≤ x ∧ a = s.i.toNat + k.val ∧ b = s.reg k

/-- A step that is not stopped by a fault: the safe steps of a run (60_exceptions.md R209). -/
def SafeStep (s : State) : Prop := ∃ t, step s = .next t

end Sys2Proof.Machine
end

