-- ==== Sys2Proof/Certificates/Slice0/Obligations.lean ====
section
/-! DEFINITION. The statements for the provers, from the numbered rules of spec/. Each docstring names the rules. The
terms SamePart, OnlyChanges, Inv, Fetches and the like are defined in Safety.lean. -/

open Sys2Proof Sys2Proof.Machine

/-! ### Reset, fetch, step and decode -/

/-- R38, R230, R231: the values after reset, of the machine's first state and of the Reset port from any state; two
resets are one. I = 0 and redraw = false are the spec's decision D25, the default font bytes its D27 (log entries 13,
4). -/
def Obligations.ResetLeavesEveryPieceOfState : Prop :=
  State.reset.HasResetValues ∧ (∀ a < 80, State.reset.mem.read a = fontTable.getD a 0) ∧
  ∀ s : State, s.resetAll.HasResetValues ∧ s.resetAll.params = s.params ∧ s.resetAll.resetAll = s.resetAll

/-- 95_test_vectors.md section 2.1 and R85 to R90: sample words decode to the instruction they stand for. The bit
patterns are the spec's, from general knowledge (D2, log entry 11). -/
def Obligations.SampleWordsDecodeAsTabled : Prop :=
  decodeWord 0x00E0 = .ok .cls ∧ decodeWord 0x00EE = .ok .ret ∧ decodeWord 0x01E0 = .ok (.sys 0x1E0) ∧
  decodeWord 0x2400 = .ok (.call 0x400) ∧ decodeWord 0x3342 = .ok (.seImm 3 0x42) ∧
  decodeWord 0x5120 = .ok (.seReg 1 2) ∧ decodeWord 0x5121 = .error (.unknown 0x5121) ∧
  decodeWord 0x8ABE = .ok (.shl 0xA 0xB) ∧ decodeWord 0x8ABF = .error (.unknown 0x8ABF) ∧
  decodeWord 0x9AB0 = .ok (.sneReg 0xA 0xB) ∧ decodeWord 0xB123 = .ok (.jpV0 0x123) ∧
  decodeWord 0xC30F = .ok (.rnd 3 0x0F) ∧ decodeWord 0xD015 = .ok (.drw 0 1 5) ∧
  decodeWord 0xE1A1 = .ok (.sknp 1) ∧ decodeWord 0xE19F = .error (.unknown 0xE19F) ∧
  decodeWord 0xF165 = .ok (.ldVxMem 1) ∧ decodeWord 0xF166 = .error (.unknown 0xF166)

/-- R83: a step at a decodable instruction is exec of that instruction at the step entry; the entry clears redraw and
the model's report field (log entry 3) and nothing else. -/
def Obligations.StepRunsTheDecodedInstruction : Prop :=
  ∀ (s : State) (i : Instr), s.Fetches i →
    step s = exec i s.beginStep ∧ i.wellFormed = true ∧
    s.beginStep.redraw = false ∧ s.beginStep.report = none ∧
    OnlyChanges (fun p => p = .redraw ∨ p = .report) s s.beginStep

/-- R54: the fetched word has mem[pc] in w[15:8] and mem[pc + 1] in w[7:0], and a byte stored at A is w[15:8] of a fetch
at A and w[7:0] of a fetch at A - 1. -/
def Obligations.FetchIsBigEndian : Prop :=
  (∀ s : State, s.Fetchable → ∃ w, s.fetch = .ok w ∧ w.toNat = s.wordAtPc) ∧
  (∀ (s : State) (a : Nat) (b : Byte), a + 1 < 4096 →
    ∃ w : Word, { s with mem := s.mem.write a b, pc := BitVec.ofNat 16 a }.fetch = .ok w ∧
      w.toNat / 256 = b.toNat) ∧
  (∀ (s : State) (a : Nat) (b : Byte), a + 1 < 4096 →
    ∃ w : Word, { s with mem := s.mem.write (a + 1) b, pc := BitVec.ofNat 16 a }.fetch = .ok w ∧
      w.toNat % 256 = b.toNat)

/-- R33: the redraw flag after a step is set exactly by CLS and DRW, and no step depends on its value. -/
def Obligations.RedrawIsSetExactlyByClsAndDrw : Prop :=
  (∀ s t : State, step s = .next t →
    (t.redraw = true ↔ s.Fetches .cls ∨ ∃ x y n, s.Fetches (.drw x y n))) ∧
  (∀ (s : State) (b : Bool), step { s with redraw := b } = step s)

/-- R204 (and R92): an Unknown word, SYS among them, is reported and execution goes on at pc + 2, or is the fatal fault
when UNKNOWN_OPCODE_FATAL; the default is report and continue. R206: the Step port answers Completed with that one
record, of code 4, and Completed without a record on every other word. -/
def Obligations.UnknownWordReportsAndContinues : Prop :=
  defaultParams.unknownOpcodeFatal = false ∧
  (∀ s t : State, step s = .next t → ¬ UnknownWord s.wordAtPc → transact .step s = (.stepCompleted [], t)) ∧
  ∀ (s : State) (w : Word), s.Fetchable → w.toNat = s.wordAtPc → UnknownWord w.toNat →
    (s.params.unknownOpcodeFatal = false →
      ∃ t, step s = .next t ∧ t.pc.toNat = s.pc.toNat + 2 ∧ t.report = some ⟨s.pc, w⟩ ∧ t.redraw = false ∧
        OnlyChanges (fun p => p = .pc ∨ p = .report ∨ p = .redraw) s t ∧
        transact .step s = (.stepCompleted [⟨s.pc, w⟩], t) ∧ (⟨s.pc, w⟩ : UnknownReport).code = 4) ∧
    (s.params.unknownOpcodeFatal = true →
      step s = .fault (.unknownOpcode s.pc w) ∧
        transact .step s = (.stepFaulted (.unknownOpcode s.pc w), s.beginStep) ∧
        OnlyChanges (fun p => p = .report ∨ p = .redraw) s s.beginStep)

/-- R110 (the spec's decision D4, log entry 9): SYS NNN only reports its word and advances, or is the fatal fault. -/
def Obligations.SysTakesTheUnknownOpcodePath : Prop :=
  ∀ (nnn : Addr12) (s : State), ∃ w : Word, w.toNat = nnn.toNat ∧
    (s.params.unknownOpcodeFatal = false →
      ∃ t, exec (.sys nnn) s = .next t ∧ t.pc = s.pc + 2 ∧ t.report = some ⟨s.pc, w⟩ ∧
        OnlyChanges (fun p => p = .pc ∨ p = .report) s t) ∧
    (s.params.unknownOpcodeFatal = true → exec (.sys nnn) s = .fault (.unknownOpcode s.pc w))

/-! ### Control transfer and skips -/

/-- R111: JP sets pc to NNN and changes nothing else; a target of 0xFFF makes the next fetch fault; a jump to its own
address leaves the state unchanged. -/
def Obligations.JpSetsOnlyPc : Prop :=
  ∀ (nnn : Addr12) (s : State), ∃ t, exec (.jp nnn) s = .next t ∧
    t.pc.toNat = nnn.toNat ∧ OnlyChanges (fun p => p = .pc) s t ∧
    (nnn.toNat = 0xFFF → step t = .fault (.addressing 0x1000 0xFFF none)) ∧
    (nnn.toNat = s.pc.toNat → t = s)

/-- R112: CALL pushes pc and jumps; with sp = 16 it is StackOverflow, and the step leaves the state but for the clearing at
its entry. -/
def Obligations.CallPushesPcAndJumps : Prop :=
  ∀ (nnn : Addr12) (s : State),
    (s.sp.val < 16 → ∃ t, exec (.call nnn) s = .next t ∧
      t.pc.toNat = nnn.toNat ∧ t.sp.val = s.sp.val + 1 ∧
      (∀ k : Fin 16, k.val = s.sp.val → t.stack[k] = s.pc) ∧
      OnlyChanges (fun p => p = .pc ∨ p = .sp ∨ ∃ k : Fin 16, k.val = s.sp.val ∧ p = .slot k) s t) ∧
    (s.sp.val = 16 → ∃ w : Word, w.toNat = 0x2000 + nnn.toNat ∧
      exec (.call nnn) s = .fault (.stackOverflow s.pc w) ∧
      (s.Fetches (.call nnn) → OnlyChanges (fun p => p = .redraw ∨ p = .report) s (transact .step s).2))

/-- R117: RET pops and resumes at the saved address + 2, and the slot keeps its value; with sp = 0 it is
StackUnderflow, and the step leaves the state but for the clearing at its entry. -/
def Obligations.RetPopsAndResumesAfterTheCall : Prop :=
  ∀ s : State,
    (0 < s.sp.val → ∃ t, exec .ret s = .next t ∧
      t.sp.val + 1 = s.sp.val ∧
      (∀ k : Fin 16, k.val + 1 = s.sp.val → t.pc = s.stack[k] + 2) ∧
      OnlyChanges (fun p => p = .pc ∨ p = .sp) s t) ∧
    (s.sp.val = 0 → exec .ret s = .fault (.stackUnderflow s.pc 0x00EE) ∧
      (s.Fetches .ret → OnlyChanges (fun p => p = .redraw ∨ p = .report) s (transact .step s).2))

/-- R112 and R117 (test vector S6): a RET after a CALL resumes after the CALL with sp restored, and only the slot the
CALL used keeps its trace; under the invariant a RET's sum is exact and at most 0x1000 (log entry 7). -/
def Obligations.ReturnAfterCallRestoresTheStack : Prop :=
  (∀ (nnn : Addr12) (s t : State), exec (.call nnn) s = .next t →
    ∃ u, exec .ret t = .next u ∧ u.pc = s.pc + 2 ∧
      OnlyChanges (fun p => p = .pc ∨ ∃ k : Fin 16, k.val = s.sp.val ∧ p = .slot k) s u) ∧
  (∀ (s : State) (k : Fin 16), s.Inv → k.val + 1 = s.sp.val →
    ∃ t, exec .ret s = .next t ∧ t.pc.toNat = s.stack[k].toNat + 2 ∧ t.pc.toNat ≤ 0x1000)

/-- R113, R114: SE and SNE with an immediate advance pc by 4 or 2 and change nothing else. The skipped word is not
looked at, the spec's decision D34 (log entry 21): the same holds whatever memory holds. -/
def Obligations.ImmediateSkipsMoveOnlyPc : Prop :=
  ∀ (x : Reg) (nn : Byte) (s : State) (m : Memory),
    (∃ t, exec (.seImm x nn) s = .next t ∧ exec (.seImm x nn) { s with mem := m } = .next { t with mem := m } ∧
      t.pc = (if (s.reg x).toNat = nn.toNat then s.pc + 4 else s.pc + 2) ∧ OnlyChanges (fun p => p = .pc) s t) ∧
    (∃ t, exec (.sneImm x nn) s = .next t ∧ exec (.sneImm x nn) { s with mem := m } = .next { t with mem := m } ∧
      t.pc = (if (s.reg x).toNat = nn.toNat then s.pc + 2 else s.pc + 4) ∧ OnlyChanges (fun p => p = .pc) s t)

/-- R115, R116: SE and SNE of two registers advance pc by 4 or 2 and change nothing else. -/
def Obligations.RegisterSkipsMoveOnlyPc : Prop :=
  ∀ (x y : Reg) (s : State),
    (∃ t, exec (.seReg x y) s = .next t ∧
      t.pc = (if (s.reg x).toNat = (s.reg y).toNat then s.pc + 4 else s.pc + 2) ∧
      (x = y → t.pc = s.pc + 4) ∧ OnlyChanges (fun p => p = .pc) s t) ∧
    (∃ t, exec (.sneReg x y) s = .next t ∧
      t.pc = (if (s.reg x).toNat = (s.reg y).toNat then s.pc + 2 else s.pc + 4) ∧
      (x = y → t.pc = s.pc + 2) ∧ OnlyChanges (fun p => p = .pc) s t)

/-- R118 (from general knowledge, G11 and D14, log entry 17): JP V0 sets pc to the exact sum NNN + V0. -/
def Obligations.JpV0AddsV0Exactly : Prop :=
  ∀ (nnn : Addr12) (s : State), ∃ t, exec (.jpV0 nnn) s = .next t ∧
    t.pc.toNat = nnn.toNat + (s.reg 0).toNat ∧ t.pc.toNat ≤ 0x10FE ∧ OnlyChanges (fun p => p = .pc) s t

/-! ### Register arithmetic and logic -/

/-- R131, R140: LD Vx, Vy and LD Vx, NN set x[X] and advance. -/
def Obligations.RegisterLoadsSetOnlyTheDestination : Prop :=
  (∀ (x y : Reg) (s : State), ∃ t, exec (.ldVxVy x y) s = .next t ∧
    t.reg x = s.reg y ∧ t.pc = s.pc + 2 ∧ OnlyChanges (fun p => p = .reg x ∨ p = .pc) s t) ∧
  (∀ (x : Reg) (nn : Byte) (s : State), ∃ t, exec (.ldVxNn x nn) s = .next t ∧
    t.reg x = nn ∧ t.pc = s.pc + 2 ∧ OnlyChanges (fun p => p = .reg x ∨ p = .pc) s t)

/-- R132, R133, R134: OR, AND and XOR bit by bit. VF is not written except as destination: the spec's decision D11 (log
entry 18). -/
def Obligations.LogicOpsAreBitwiseAndLeaveVf : Prop :=
  ∀ (x y : Reg) (s : State),
    (∃ t, exec (.orVxVy x y) s = .next t ∧
      (∀ b, (t.reg x).getLsbD b = ((s.reg x).getLsbD b || (s.reg y).getLsbD b)) ∧
      t.pc = s.pc + 2 ∧ OnlyChanges (fun p => p = .reg x ∨ p = .pc) s t) ∧
    (∃ t, exec (.andVxVy x y) s = .next t ∧
      (∀ b, (t.reg x).getLsbD b = ((s.reg x).getLsbD b && (s.reg y).getLsbD b)) ∧
      t.pc = s.pc + 2 ∧ OnlyChanges (fun p => p = .reg x ∨ p = .pc) s t) ∧
    (∃ t, exec (.xorVxVy x y) s = .next t ∧
      (∀ b, (t.reg x).getLsbD b = ((s.reg x).getLsbD b != (s.reg y).getLsbD b)) ∧
      t.pc = s.pc + 2 ∧ OnlyChanges (fun p => p = .reg x ∨ p = .pc) s t)

/-- R135: ADD Vx, Vy wraps mod 256 with VF the carry. With X = F the order is the parameter of R130, the spec's
decision D8 (log entry 14). -/
def Obligations.AddWrapsAndSetsCarry : Prop :=
  ∀ (x y : Reg) (s : State), ∃ t, exec (.addVxVy x y) s = .next t ∧
    t.HasResultAndFlag s.params.vfWriteOrder x (((s.reg x).toNat + (s.reg y).toNat) % 256)
      (if 0xFF < (s.reg x).toNat + (s.reg y).toNat then 1 else 0) ∧
    t.pc = s.pc + 2 ∧ OnlyChanges (fun p => p = .reg x ∨ p = .reg vf ∨ p = .pc) s t

/-- R136, R138: SUB and SUBN wrap mod 256 with VF not-borrow, non-strict: the spec's decision D9 (log entry 15); with
X = F its D8 (log entry 14). -/
def Obligations.SubtractionsWrapAndSetNotBorrow : Prop :=
  ∀ (x y : Reg) (s : State),
    (∃ t, exec (.sub x y) s = .next t ∧
      t.HasResultAndFlag s.params.vfWriteOrder x ((256 + (s.reg x).toNat - (s.reg y).toNat) % 256)
        (if (s.reg y).toNat ≤ (s.reg x).toNat then 1 else 0) ∧
      t.pc = s.pc + 2 ∧ OnlyChanges (fun p => p = .reg x ∨ p = .reg vf ∨ p = .pc) s t) ∧
    (∃ t, exec (.subn x y) s = .next t ∧
      t.HasResultAndFlag s.params.vfWriteOrder x ((256 + (s.reg y).toNat - (s.reg x).toNat) % 256)
        (if (s.reg x).toNat ≤ (s.reg y).toNat then 1 else 0) ∧
      t.pc = s.pc + 2 ∧ OnlyChanges (fun p => p = .reg x ∨ p = .reg vf ∨ p = .pc) s t)

/-- R137, R139: SHR and SHL shift by one with VF the bit shifted out. The register shifted is SHIFT_SOURCE, the spec's
decision D10; with X = F the order is its D8 (log entries 1, 14). -/
def Obligations.ShiftsMoveOneBitIntoVf : Prop :=
  ∀ (x y : Reg) (s : State),
    (∃ t, exec (.shr x y) s = .next t ∧
      t.HasResultAndFlag s.params.vfWriteOrder x (s.shifted x y / 2) (s.shifted x y % 2) ∧
      t.pc = s.pc + 2 ∧ OnlyChanges (fun p => p = .reg x ∨ p = .reg vf ∨ p = .pc) s t) ∧
    (∃ t, exec (.shl x y) s = .next t ∧
      t.HasResultAndFlag s.params.vfWriteOrder x (s.shifted x y * 2 % 256) (s.shifted x y / 128) ∧
      t.pc = s.pc + 2 ∧ OnlyChanges (fun p => p = .reg x ∨ p = .reg vf ∨ p = .pc) s t)

/-- R141: ADD Vx, NN wraps mod 256 and writes no flag. -/
def Obligations.ImmediateAddWrapsWithoutFlag : Prop :=
  ∀ (x : Reg) (nn : Byte) (s : State), ∃ t, exec (.addVxNn x nn) s = .next t ∧
    (t.reg x).toNat = ((s.reg x).toNat + nn.toNat) % 256 ∧ (x ≠ vf → t.reg vf = s.reg vf) ∧
    t.pc = s.pc + 2 ∧ OnlyChanges (fun p => p = .reg x ∨ p = .pc) s t

/-! ### Index register and random -/

/-- R150, R152: LD I sets I to NNN; LD F sets it to 5 times the low nibble of Vx. -/
def Obligations.IndexLoadsSetOnlyI : Prop :=
  (∀ (nnn : Addr12) (s : State), ∃ t, exec (.ldI nnn) s = .next t ∧
    t.i.toNat = nnn.toNat ∧ t.pc = s.pc + 2 ∧ OnlyChanges (fun p => p = .index ∨ p = .pc) s t) ∧
  (∀ (x : Reg) (s : State), ∃ t, exec (.ldF x) s = .next t ∧
    t.i.toNat = 5 * ((s.reg x).toNat % 16) ∧ t.pc = s.pc + 2 ∧ OnlyChanges (fun p => p = .index ∨ p = .pc) s t)

/-- R151: ADD I wraps at 16 bits; VF tells whether the exact sum exceeds ADDI_OVERFLOW_LIMIT, and is not written when
that is none: the spec's decision D12 (log entry 16). -/
def Obligations.IndexAddWrapsAndSetsOverflow : Prop :=
  ∀ (x : Reg) (s : State), ∃ t, exec (.addI x) s = .next t ∧
    t.i.toNat = (s.i.toNat + (s.reg x).toNat) % 65536 ∧
    (∀ limit, s.params.addiOverflowLimit = some limit →
      (t.reg vf).toNat = if limit < s.i.toNat + (s.reg x).toNat then 1 else 0) ∧
    t.pc = s.pc + 2 ∧
    OnlyChanges (fun p => p = .index ∨ p = .pc ∨ (s.params.addiOverflowLimit ≠ none ∧ p = .reg vf)) s t

/-- R153: RND writes the AND of a fresh draw and NN; the draw is the free value of log entry 2 (the spec's decision
D26), so this holds for every draw. -/
def Obligations.RndMasksAFreshDraw : Prop :=
  ∀ (x : Reg) (nn : Byte) (s : State), ∃ t, exec (.rnd x nn) s = .next t ∧
    (∀ b, (t.reg x).getLsbD b = ((Config.rand s.draws).getLsbD b && nn.getLsbD b)) ∧
    (nn = 0 → t.reg x = 0) ∧ t.draws = s.draws + 1 ∧ t.pc = s.pc + 2 ∧
    OnlyChanges (fun p => p = .reg x ∨ p = .pc ∨ p = .draws) s t

/-! ### Display -/

/-- R160: CLS sets every cell to 0 and the redraw flag, and writes no register. -/
def Obligations.ClsClearsTheFramebuffer : Prop :=
  ∀ s : State, ∃ t, exec .cls s = .next t ∧ (∀ p, t.fb.get p = false) ∧ t.redraw = true ∧ t.pc = s.pc + 2 ∧
    OnlyChanges (fun q => (∃ p, q = .cell p) ∨ q = .redraw ∨ q = .pc) s t

/-- R161: DRW flips exactly the covered cells, VF is 1 exactly when a covered cell was set before, redraw is set; N = 0
cannot fault. X or Y = F reads the old VF: the spec's decision D18 (log entry 20). -/
def Obligations.DrwXorsTheSpriteAndSetsCollision : Prop :=
  ∀ (x y : Reg) (n : Nibble) (s : State), n = 0 ∨ s.i.toNat + n.toNat ≤ 4096 →
    ∃ t, exec (.drw x y n) s = .next t ∧
      (∀ p, s.Covers x y n p → t.fb.get p = !s.fb.get p) ∧
      (∀ p, ¬ s.Covers x y n p → t.fb.get p = s.fb.get p) ∧
      ((∃ p, s.Covers x y n p ∧ s.fb.get p = true) → t.reg vf = 1) ∧
      ((¬ ∃ p, s.Covers x y n p ∧ s.fb.get p = true) → t.reg vf = 0) ∧
      t.redraw = true ∧ t.pc = s.pc + 2 ∧
      OnlyChanges (fun q => (∃ p, s.Covers x y n p ∧ q = .cell p) ∨ q = .reg vf ∨ q = .redraw ∨ q = .pc) s t

/-- R162: drawing twice, with Vx and Vy unchanged between the draws, restores every cell; the second draw's VF is 1
exactly when a covered cell was 0 before the first. -/
def Obligations.DrawingTwiceRestoresTheFramebuffer : Prop :=
  ∀ (x y : Reg) (n : Nibble) (s t : State), exec (.drw x y n) s = .next t →
    t.reg x = s.reg x → t.reg y = s.reg y →
    ∃ u, exec (.drw x y n) t = .next u ∧ (∀ p, u.fb.get p = s.fb.get p) ∧
      (t.reg vf = 1 ↔ ∃ p, s.Covers x y n p ∧ s.fb.get p = true) ∧
      (u.reg vf = 1 ↔ ∃ p, s.Covers x y n p ∧ s.fb.get p = false)

/-- R201: every access outside [0, 4096), fetch, sprite read, BCD store, block store and block load, is AddressingFault
with the lowest address of the access at or above 4096. -/
def Obligations.AccessOutsideMemoryFaults : Prop :=
  ∀ (s : State) (a : Nat),
    (LowestOutside s.pc.toNat 2 a → step s = .fault (.addressing a s.pc none)) ∧
    (∀ x y n, LowestOutside s.i.toNat n.toNat a →
      exec (.drw x y n) s = .fault (.addressing a s.pc (some (encode (.drw x y n))))) ∧
    (∀ x, LowestOutside s.i.toNat 3 a →
      exec (.ldB x) s = .fault (.addressing a s.pc (some (encode (.ldB x))))) ∧
    (∀ x, LowestOutside s.i.toNat (x.val + 1) a →
      exec (.ldMemVx x) s = .fault (.addressing a s.pc (some (encode (.ldMemVx x))))) ∧
    (∀ x, LowestOutside s.i.toNat (x.val + 1) a →
      exec (.ldVxMem x) s = .fault (.addressing a s.pc (some (encode (.ldVxMem x)))))

/-! ### Keypad -/

/-- R170, R171, R172: SKP and SKNP skip on the flag that Vx names; above 0x0F only under low_nibble, the spec's decision
D15 (log entry 19). -/
def Obligations.KeySkipsTestTheNamedKey : Prop :=
  ∀ (x : Reg) (s : State) (k : Fin 16), s.TestsKey x k →
    (∃ t, exec (.skp x) s = .next t ∧ t.pc = (if s.key[k] = true then s.pc + 4 else s.pc + 2) ∧
      OnlyChanges (fun p => p = .pc) s t) ∧
    (∃ t, exec (.sknp x) s = .next t ∧ t.pc = (if s.key[k] = true then s.pc + 2 else s.pc + 4) ∧
      OnlyChanges (fun p => p = .pc) s t)

/-- R170, R205: under KEY_INDEX_POLICY = fault a value above 0x0F is KeyIndexFault, the spec's decision D15 (log entry
19). -/
def Obligations.KeyIndexAboveFifteenFaults : Prop :=
  ∀ (x : Reg) (s : State), s.params.keyIndexPolicy = .fault → 0x0F < (s.reg x).toNat →
    (∃ w : Word, w.toNat = 0xE09E + x.val * 256 ∧ exec (.skp x) s = .fault (.keyIndex s.pc w (s.reg x))) ∧
    (∃ w : Word, w.toNat = 0xE0A1 + x.val * 256 ∧ exec (.sknp x) s = .fault (.keyIndex s.pc w (s.reg x)))

/-- R173: LD Vx, K writes the lowest pressed key (the spec's decision D16, log entry 19) and advances; with no key
pressed it changes nothing. -/
def Obligations.KeyReadTakesTheLowestKeyOrWaits : Prop :=
  ∀ (x : Reg) (s : State),
    (∀ k : Fin 16, s.key[k] = true → (∀ j : Fin 16, j < k → s.key[j] = false) →
      ∃ t, exec (.ldVxK x) s = .next t ∧ (t.reg x).toNat = k.val ∧ t.pc = s.pc + 2 ∧
        OnlyChanges (fun p => p = .reg x ∨ p = .pc) s t) ∧
    ((∀ k : Fin 16, s.key[k] = false) → exec (.ldVxK x) s = .next s)

/-! ### Timers, BCD and blocks -/

/-- R180, R181: LD Vx, DT and LD DT, Vx copy between a register and the delay timer. -/
def Obligations.DelayTimerMovesCopy : Prop :=
  ∀ (x : Reg) (s : State),
    (∃ t, exec (.ldVxDt x) s = .next t ∧ t.reg x = s.dt ∧ t.pc = s.pc + 2 ∧
      OnlyChanges (fun p => p = .reg x ∨ p = .pc) s t) ∧
    (∃ t, exec (.ldDtVx x) s = .next t ∧ t.dt = s.reg x ∧ t.pc = s.pc + 2 ∧
      OnlyChanges (fun p => p = .dt ∨ p = .pc) s t)

/-- R182: LD ST copies a register into the sound timer; with 1, the next tick sets st to 0 and signals the edge; no
step signals it (the spec's decision D30, log entry 24). -/
def Obligations.SoundTimerMoveCopiesWithoutEdge : Prop :=
  (∀ (x : Reg) (s : State), ∃ t, exec (.ldStVx x) s = .next t ∧ t.st = s.reg x ∧ t.pc = s.pc + 2 ∧
    (s.reg x = 1 → (transact .tick t).1 = .ticked true ∧ (transact .tick t).2.st = 0) ∧
    OnlyChanges (fun p => p = .st ∨ p = .pc) s t) ∧
  (∀ (s : State) (edge : Bool), (transact .step s).1 ≠ .ticked edge)

/-- R183: LD B stores the three decimal digits at I, I + 1, I + 2 and changes no other byte; if one of the three is
outside memory it is AddressingFault with the lowest such address, and the step writes nothing. -/
def Obligations.BcdStoreWritesThreeDigits : Prop :=
  ∀ (x : Reg) (s : State),
    (s.i.toNat + 2 < 4096 → ∃ t, exec (.ldB x) s = .next t ∧
      (t.mem.read s.i.toNat).toNat = (s.reg x).toNat / 100 ∧
      (t.mem.read (s.i.toNat + 1)).toNat = (s.reg x).toNat / 10 % 10 ∧
      (t.mem.read (s.i.toNat + 2)).toNat = (s.reg x).toNat % 10 ∧
      (s.reg x).toNat / 100 ≤ 2 ∧ t.pc = s.pc + 2 ∧
      OnlyChanges (fun p => p = .pc ∨ ∃ k < 3, p = .byte (s.i.toNat + k)) s t) ∧
    (∀ a, LowestOutside s.i.toNat 3 a →
      exec (.ldB x) s = .fault (.addressing a s.pc (some (encode (.ldB x)))) ∧
      (s.Fetches (.ldB x) → OnlyChanges (fun p => p = .redraw ∨ p = .report) s (transact .step s).2))

/-- R184: LD [I], Vx stores V0 to Vx at I onwards and changes no other byte. I follows BLOCK_I_INCREMENT, the spec's
decision D13 (log entry 1). -/
def Obligations.BlockStoreWritesTheRegisters : Prop :=
  ∀ (x : Reg) (s : State), s.i.toNat + x.val < 4096 → ∃ t, exec (.ldMemVx x) s = .next t ∧
    (∀ k : Reg, k ≤ x → t.mem.read (s.i.toNat + k.val) = s.reg k) ∧ s.IndexAfterBlock t x ∧ t.pc = s.pc + 2 ∧
    OnlyChanges (fun p => p = .pc ∨ (s.params.blockIIncrement ≠ .none ∧ p = .index) ∨
      ∃ k ≤ x.val, p = .byte (s.i.toNat + k)) s t

/-- R185: LD Vx, [I] loads V0 to Vx from I onwards and changes no other register. I follows BLOCK_I_INCREMENT, the
spec's decision D13 (log entry 1). -/
def Obligations.BlockLoadReadsTheRegisters : Prop :=
  ∀ (x : Reg) (s : State), s.i.toNat + x.val < 4096 → ∃ t, exec (.ldVxMem x) s = .next t ∧
    (∀ k : Reg, k ≤ x → t.reg k = s.mem.read (s.i.toNat + k.val)) ∧ s.IndexAfterBlock t x ∧ t.pc = s.pc + 2 ∧
    OnlyChanges (fun p => p = .pc ∨ (s.params.blockIIncrement ≠ .none ∧ p = .index) ∨
      ∃ k : Reg, k ≤ x ∧ p = .reg k) s t

/-- R67: after an instruction, the fetch at every address, that of the very next instruction (u = t) among them, has
each byte the instruction stored (by LD B or LD [I], both bytes of the word or one) and the old byte where it stored
none; and the step executes the word so fetched. -/
def Obligations.NextFetchSeesTheStoredWord : Prop :=
  ∀ (i : Instr) (s t u : State), exec i s = .next t → u.mem = t.mem → u.Fetchable →
    ∃ w, u.fetch = .ok w ∧
      (∀ b, s.StoresByte i u.pc.toNat b → w.toNat / 256 = b.toNat) ∧
      (∀ b, s.StoresByte i (u.pc.toNat + 1) b → w.toNat % 256 = b.toNat) ∧
      ((¬ ∃ b, s.StoresByte i u.pc.toNat b) → w.toNat / 256 = (s.mem.read u.pc.toNat).toNat) ∧
      ((¬ ∃ b, s.StoresByte i (u.pc.toNat + 1) b) → w.toNat % 256 = (s.mem.read (u.pc.toNat + 1)).toNat) ∧
      ∀ j, decodeWord w = .ok j → step u = exec j u.beginStep

/-! ### Faults -/

/-- R203, R209: after a faulting step only the clearing at step entry remains, pc still names the instruction, and the
step of that state faults alike. The full rejection is the spec's decision D20 (log entry 6). -/
def Obligations.FaultsArePreciseAndRepeat : Prop :=
  ∀ (s t : State) (f : Fault), transact .step s = (.stepFaulted f, t) →
    t.redraw = false ∧ OnlyChanges (fun p => p = .redraw ∨ p = .report) s t ∧
    transact .step t = (.stepFaulted f, t)

/-- R200, R202, R205: what raises each fault, and what it records: pc and the fetched word of this step. The classes and
records are the spec's own (D15, D19; log entries 10, 19). -/
def Obligations.EachFaultHasItsCause : Prop :=
  ∀ (s : State) (f : Fault), step s = .fault f →
    match f with
    | .addressing a pc w => pc = s.pc ∧ 4096 ≤ a ∧
        ((¬ s.Fetchable ∧ w = none) ∨
          (w = some (BitVec.ofNat 16 s.wordAtPc) ∧
            ((∃ x y n, s.Fetches (.drw x y n)) ∨ (∃ x, s.Fetches (.ldB x)) ∨
              (∃ x, s.Fetches (.ldMemVx x)) ∨ ∃ x, s.Fetches (.ldVxMem x))))
    | .stackOverflow pc w => pc = s.pc ∧ w = BitVec.ofNat 16 s.wordAtPc ∧ s.sp.val = 16 ∧
        ∃ nnn, s.Fetches (.call nnn)
    | .stackUnderflow pc w => pc = s.pc ∧ w = BitVec.ofNat 16 s.wordAtPc ∧ s.sp.val = 0 ∧ s.Fetches .ret
    | .unknownOpcode pc w => pc = s.pc ∧ w = BitVec.ofNat 16 s.wordAtPc ∧ s.Fetchable ∧
        UnknownWord s.wordAtPc ∧ s.params.unknownOpcodeFatal = true
    | .keyIndex pc w v => pc = s.pc ∧ w = BitVec.ofNat 16 s.wordAtPc ∧ s.params.keyIndexPolicy = .fault ∧
        0x0F < v.toNat ∧ ∃ x, v = s.reg x ∧ (s.Fetches (.skp x) ∨ s.Fetches (.sknp x))

/-- R84, R212: every word has an effect and every instruction is available, so no step is refused. -/
def Obligations.NoStepIsRefused : Prop := ∀ (s : State) (r : Refusal), step s ≠ .refused r

/-! ### Devices -/

/-- R214: Tick decrements both timers with a floor at 0, emits SoundEdge on the 1 to 0 of st, and changes nothing
else. -/
def Obligations.TickDecrementsBothTimers : Prop :=
  ∀ s : State, ∃ t, transact .tick s = (.ticked (decide (s.st.toNat = 1)), t) ∧
    t.dt.toNat = s.dt.toNat - 1 ∧ t.st.toNat = s.st.toNat - 1 ∧ OnlyChanges (fun p => p = .dt ∨ p = .st) s t

/-- R218, R219: SetKey sets one flag and changes nothing else; the display reads give the whole framebuffer and the redraw
flag, and change nothing. -/
def Obligations.KeyAndDisplayPortsTouchOnlyTheirState : Prop :=
  (∀ (s : State) (k : Fin 16) (b : Bool), (transact (.setKey k b) s).2.key[k] = b ∧
    OnlyChanges (fun p => p = .key k) s (transact (.setKey k b) s).2) ∧
  (∀ s : State, transact .readFramebuffer s = (.frame s.fb, s) ∧
    transact .readRedraw s = (.redrawFlag s.redraw, s))

/-- R236: an image of at most 3584 bytes is copied to 0x200 onwards and nothing else changes; a longer one is refused
whole, the spec's decision D29 (log entry 23). -/
def Obligations.LoaderCopiesOrRefusesWhole : Prop :=
  ∀ (s : State) (image : List Byte),
    (image.length ≤ 3584 → ∃ t, transact (.loadImage image) s = (.loaded, t) ∧
      (∀ k < image.length, t.mem.read (0x200 + k) = image.getD k 0) ∧
      OnlyChanges (fun p => ∃ k < image.length, p = .byte (0x200 + k)) s t) ∧
    (3584 < image.length → transact (.loadImage image) s = (.loadRefused, s))

/-! ### Invariants -/

/-- The invariant holds in the reset state. -/
def Obligations.ResetSatisfiesTheInvariant : Prop := State.reset.Inv

/-- R26, R117, R28: every step keeps the memory canonical (log entry 4), pc at most 0x10FE, and every live saved address
at most 0xFFE. -/
def Obligations.EveryStepKeepsTheInvariant : Prop := ∀ s t : State, s.Inv → step s = .next t → t.Inv

/-- R65: whatever the driver interleaves, steps, ticks, key events, loads, resets and reads, the invariant is kept. -/
def Obligations.EveryScheduleKeepsTheInvariant : Prop := ∀ (ps : List Port) (s : State), s.Inv → (runPorts ps s).Inv

/-- R25: how a step moves pc: to the target for jumps and calls, to the popped slot + 2 for returns, by 4 or 2 for
skips, by 0 for a waiting key read, by 2 for the rest and for Unknown words; a faulting step leaves it. Every sum is
exact, without wrap: that of a return in states that meet the invariant, in others it is the 16-bit sum (log entry 7).
The sum of JP V0 and the key that SKP and SKNP test are the spec's decisions D14 and D15 (log entries 17, 19). -/
def Obligations.StepMovesPcAsListed : Prop :=
  (∀ s t : State, step s = .next t → ∀ i, s.Fetches i →
    match i with
    | .jp nnn | .call nnn => t.pc.toNat = nnn.toNat
    | .jpV0 nnn => t.pc.toNat = nnn.toNat + (s.reg 0).toNat
    | .ret => ∃ k : Fin 16, k.val + 1 = s.sp.val ∧ t.pc = s.stack[k] + 2 ∧
        (s.Inv → t.pc.toNat = s.stack[k].toNat + 2)
    | .seImm x nn => t.pc.toNat = s.pc.toNat + if s.reg x = nn then 4 else 2
    | .sneImm x nn => t.pc.toNat = s.pc.toNat + if s.reg x = nn then 2 else 4
    | .seReg x y => t.pc.toNat = s.pc.toNat + if s.reg x = s.reg y then 4 else 2
    | .sneReg x y => t.pc.toNat = s.pc.toNat + if s.reg x = s.reg y then 2 else 4
    | .skp x => ∃ k, s.TestsKey x k ∧ t.pc.toNat = s.pc.toNat + if s.key[k] = true then 4 else 2
    | .sknp x => ∃ k, s.TestsKey x k ∧ t.pc.toNat = s.pc.toNat + if s.key[k] = true then 2 else 4
    | .ldVxK _ => ((∀ k : Fin 16, s.key[k] = false) → t.pc = s.pc) ∧
        ((∃ k : Fin 16, s.key[k] = true) → t.pc.toNat = s.pc.toNat + 2)
    | _ => t.pc.toNat = s.pc.toNat + 2) ∧
  (∀ s t : State, step s = .next t → UnknownWord s.wordAtPc → t.pc.toNat = s.pc.toNat + 2) ∧
  (∀ (s : State) (f : Fault), (transact .step s).1 = .stepFaulted f → (transact .step s).2.pc = s.pc)

/-! ### Encoding -/

/-- R81, R85 to R91: decoding the word, and the stored bytes, of any well-formed instruction gives it back. The bit
patterns are the spec's, from general knowledge (D2, log entry 11). -/
def Obligations.DecodeOfEncodeGivesTheInstruction : Prop :=
  ∀ (i : Instr) (rest : List Byte), i.wellFormed = true →
    decodeWord (encode i) = .ok i ∧ decodeBytes (bytesOfWord (encode i) ++ rest) = .ok (i, rest)

/-- R84: a word that decodes to an instruction is that instruction's word, and the instruction is well-formed. It includes
Y of 8XY6 and 8XYE, which R93 says decode ignores under SHIFT_SOURCE = vx: that the decoder keeps it as an operand,
which the meaning then ignores, is the model's own (log entry 28). -/
def Obligations.DecodedWordsEncodeBack : Prop :=
  ∀ (w : Word) (i : Instr), decodeWord w = .ok i → encode i = w ∧ i.wellFormed = true

/-- R84 to R89: the words that decode to no instruction or to SYS are exactly the Unknown words; the strict readings are
the spec's decisions D3 to D5 (log entry 22). -/
def Obligations.UnknownWordsAreExactlyTheListed : Prop :=
  ∀ w : Word, UnknownWord w.toNat ↔
    decodeWord w = .error (.unknown w) ∨ ∃ nnn, decodeWord w = .ok (.sys nnn)

/-! ### Whole-machine rules -/

/-- R61, R53: only LD B and LD [I] change memory, and only the bytes they store to, all in [0, 4096). -/
def Obligations.OnlyStoresChangeMemory : Prop :=
  ∀ (s t : State) (a : Nat), step s = .next t → t.mem.read a ≠ s.mem.read a →
    s.i.toNat ≤ a ∧ a < 4096 ∧
    ((∃ x, s.Fetches (.ldB x) ∧ a ≤ s.i.toNat + 2) ∨ ∃ x, s.Fetches (.ldMemVx x) ∧ a ≤ s.i.toNat + x.val)

/-- R31: only CLS and DRW change the framebuffer, DRW only the cells its sprite covers. -/
def Obligations.OnlyClsAndDrwChangeTheFramebuffer : Prop :=
  ∀ (s t : State) (p : Pixel), step s = .next t → t.fb.get p ≠ s.fb.get p →
    s.Fetches .cls ∨ ∃ x y n, s.Fetches (.drw x y n) ∧ s.Covers x y n p

/-- R32: no operation but SetKey of that key, and Reset, changes a keypad flag. -/
def Obligations.OnlyKeyEventsChangeTheKeypad : Prop :=
  ∀ (q : Port) (s : State) (k : Fin 16), (transact q s).2.key[k] ≠ s.key[k] →
    q = .reset ∨ ∃ b, q = .setKey k b

/-- R32, R35: only SKP, SKNP and LD Vx, K read the keypad: any other instruction acts alike whatever keys are pressed. -/
def Obligations.OnlyKeyInstructionsReadTheKeypad : Prop :=
  ∀ (i : Instr) (s : State) (keys : Vector Bool 16),
    (∀ x, i ≠ .skp x) → (∀ x, i ≠ .sknp x) → (∀ x, i ≠ .ldVxK x) →
    exec i { s with key := keys } =
      match exec i s with
      | .next t => .next { t with key := keys }
      | .fault f => .fault f
      | .refused r => .refused r

/-- R27, R28: only CALL writes a stack slot, the one at sp; only CALL and RET change sp. -/
def Obligations.OnlyCallAndRetTouchTheStack : Prop :=
  ∀ s t : State, step s = .next t →
    (∀ k : Fin 16, t.stack[k] ≠ s.stack[k] → k.val = s.sp.val ∧ ∃ nnn, s.Fetches (.call nnn)) ∧
    (t.sp ≠ s.sp → s.Fetches .ret ∨ ∃ nnn, s.Fetches (.call nnn))

/-- R22: VF changes only by the seven flag-writing instructions, or where an instruction names VF as its destination.
That the logic operations do not write it is the spec's decision D11 (log entry 18). -/
def Obligations.OnlyListedInstructionsWriteVf : Prop :=
  ∀ s t : State, step s = .next t → t.reg vf ≠ s.reg vf → ∃ i, s.Fetches i ∧
    match i with
    | .addVxVy _ _ | .sub _ _ | .shr _ _ | .subn _ _ | .shl _ _ | .addI _ | .drw _ _ _ => True
    | .ldVxNn x _ | .addVxNn x _ | .ldVxVy x _ | .orVxVy x _ | .andVxVy x _ | .xorVxVy x _ | .rnd x _
    | .ldVxDt x | .ldVxK x | .ldVxMem x => x = vf
    | _ => False

/-- R29, R30: no step but LD DT changes the delay timer, none but LD ST the sound timer. -/
def Obligations.OnlyTimerMovesChangeTheTimers : Prop :=
  ∀ s t : State, step s = .next t →
    (t.dt ≠ s.dt → ∃ x, s.Fetches (.ldDtVx x)) ∧ (t.st ≠ s.st → ∃ x, s.Fetches (.ldStVx x))

/-- R23: I changes only by LD I, ADD I and LD F, and by the block transfers when BLOCK_I_INCREMENT is x_plus_1. -/
def Obligations.OnlyIndexInstructionsChangeI : Prop :=
  ∀ s t : State, step s = .next t → t.i ≠ s.i →
    (∃ nnn, s.Fetches (.ldI nnn)) ∨ (∃ x, s.Fetches (.addI x)) ∨ (∃ x, s.Fetches (.ldF x)) ∨
    (s.params.blockIIncrement = .xPlusOne ∧ ∃ x, s.Fetches (.ldMemVx x) ∨ s.Fetches (.ldVxMem x))

/-- R244 (the spec's decision D36, log entry 27): from a terminal state, a self-jump, every step leaves the state
terminal and unchanged but for the clearing at step entry. -/
def Obligations.TerminalStatesStayAsTheyAre : Prop :=
  ∀ s : State, s.Terminal → ∃ t, step s = .next t ∧ t.Terminal ∧ t.redraw = false ∧
    OnlyChanges (fun p => p = .redraw ∨ p = .report) s t

/-! ### The step result and the driver -/

/-- R200, R206: the Step port answers Completed, of code 0, with the step's report, or Faulted with the fault, whose code
is 1, 2, 3, 5 or 6. The codes and the record are the spec's decision D19 (log entry 6). -/
def Obligations.StepAnswersItsResultAndCode : Prop :=
  ∀ s : State,
    (∀ t, step s = .next t → transact .step s = (.stepCompleted t.report.toList, t) ∧
      (transact .step s).1.stepCode = some 0 ∧ ∀ r, t.report = some r → r.code = 4) ∧
    (∀ f, step s = .fault f → (transact .step s).1 = .stepFaulted f ∧
      (transact .step s).1.stepCode = some (match f with
        | .addressing _ _ _ => 1
        | .stackOverflow _ _ => 2
        | .stackUnderflow _ _ => 3
        | .unknownOpcode _ _ => 5
        | .keyIndex _ _ _ => 6))

/-- R217 (the spec's decision D28, log entry 5): a wait for dt = 0 ends, and dt stays 0, in every run of a driver that
keeps calling tick and in which no step writes dt; in a run without ticks and resets dt keeps its value. -/
def Obligations.DelayWaitEndsExactlyWithTicks : Prop :=
  (∀ (sched : Schedule) (s : State), FairTicks sched → NoDelayWrite sched s →
    ∃ n, ∀ m, n ≤ m → (stateAt sched s m).dt = 0) ∧
  (∀ (sched : Schedule) (s : State), (∀ n, sched n ≠ .tick) → (∀ n, sched n ≠ .reset) → NoDelayWrite sched s →
    ∀ n, (stateAt sched s n).dt = s.dt)
end

