-- ==== Sys2Proof/Laws/Decode.lean ====
section
/-! SUPPORT. The fields of a packed word: each packing gives each of its fields back. -/

namespace Sys2Proof

theorem regBits_toNat (x : Reg) : (regBits x).toNat = x.val := rfl

theorem packAddr_toNat (g : Nibble) (nnn : Addr12) : (packAddr g nnn).toNat = g.toNat * 4096 + nnn.toNat := by
  unfold packAddr
  rw [BitVec.toNat_append, ← Nat.shiftLeft_add_eq_or_of_lt nnn.isLt, Nat.shiftLeft_eq]

theorem packXNN_toNat (g : Nibble) (x : Reg) (nn : Byte) :
    (packXNN g x nn).toNat = g.toNat * 4096 + x.val * 256 + nn.toNat := by
  unfold packXNN
  rw [BitVec.toNat_append, ← Nat.shiftLeft_add_eq_or_of_lt nn.isLt, BitVec.toNat_append,
    ← Nat.shiftLeft_add_eq_or_of_lt (regBits x).isLt, regBits_toNat, Nat.shiftLeft_eq, Nat.shiftLeft_eq]
  omega

theorem packXYN_toNat (g : Nibble) (x y : Reg) (n : Nibble) :
    (packXYN g x y n).toNat = g.toNat * 4096 + x.val * 256 + y.val * 16 + n.toNat := by
  unfold packXYN
  rw [BitVec.toNat_append, ← Nat.shiftLeft_add_eq_or_of_lt n.isLt, BitVec.toNat_append,
    ← Nat.shiftLeft_add_eq_or_of_lt (regBits y).isLt, BitVec.toNat_append,
    ← Nat.shiftLeft_add_eq_or_of_lt (regBits x).isLt, regBits_toNat, regBits_toNat, Nat.shiftLeft_eq,
    Nat.shiftLeft_eq, Nat.shiftLeft_eq]
  omega

theorem fieldG_toNat (w : Word) : (fieldG w).toNat = w.toNat / 4096 := by
  have := w.isLt
  simp only [fieldG, BitVec.extractLsb'_toNat, Nat.shiftRight_eq_div_pow]
  omega

theorem fieldX_val (w : Word) : (fieldX w).val = w.toNat / 256 % 16 := by
  simp only [fieldX, BitVec.val_toFin, BitVec.extractLsb'_toNat, Nat.shiftRight_eq_div_pow]

theorem fieldY_val (w : Word) : (fieldY w).val = w.toNat / 16 % 16 := by
  simp only [fieldY, BitVec.val_toFin, BitVec.extractLsb'_toNat, Nat.shiftRight_eq_div_pow]

theorem fieldN_toNat (w : Word) : (fieldN w).toNat = w.toNat % 16 := by
  simp only [fieldN, BitVec.extractLsb'_toNat, Nat.shiftRight_eq_div_pow]
  omega

theorem fieldNN_toNat (w : Word) : (fieldNN w).toNat = w.toNat % 256 := by
  simp only [fieldNN, BitVec.extractLsb'_toNat, Nat.shiftRight_eq_div_pow]
  omega

theorem fieldNNN_toNat (w : Word) : (fieldNNN w).toNat = w.toNat % 4096 := by
  simp only [fieldNNN, BitVec.extractLsb'_toNat, Nat.shiftRight_eq_div_pow]
  omega

section
variable (g : Nibble) (x y : Reg) (nnn : Addr12) (nn : Byte) (n : Nibble)

@[simp] theorem fieldG_packAddr : fieldG (packAddr g nnn) = g := by
  apply BitVec.eq_of_toNat_eq; rw [fieldG_toNat, packAddr_toNat]; omega

@[simp] theorem fieldNNN_packAddr : fieldNNN (packAddr g nnn) = nnn := by
  apply BitVec.eq_of_toNat_eq; rw [fieldNNN_toNat, packAddr_toNat]; omega

@[simp] theorem fieldG_packXNN : fieldG (packXNN g x nn) = g := by
  apply BitVec.eq_of_toNat_eq; rw [fieldG_toNat, packXNN_toNat]; omega

@[simp] theorem fieldX_packXNN : fieldX (packXNN g x nn) = x := by
  apply Fin.ext; rw [fieldX_val, packXNN_toNat]; omega

@[simp] theorem fieldNN_packXNN : fieldNN (packXNN g x nn) = nn := by
  apply BitVec.eq_of_toNat_eq; rw [fieldNN_toNat, packXNN_toNat]; omega

@[simp] theorem fieldG_packXYN : fieldG (packXYN g x y n) = g := by
  apply BitVec.eq_of_toNat_eq; rw [fieldG_toNat, packXYN_toNat]; omega

@[simp] theorem fieldX_packXYN : fieldX (packXYN g x y n) = x := by
  apply Fin.ext; rw [fieldX_val, packXYN_toNat]; omega

@[simp] theorem fieldY_packXYN : fieldY (packXYN g x y n) = y := by
  apply Fin.ext; rw [fieldY_val, packXYN_toNat]; omega

@[simp] theorem fieldN_packXYN : fieldN (packXYN g x y n) = n := by
  apply BitVec.eq_of_toNat_eq; rw [fieldN_toNat, packXYN_toNat]; omega

end

end Sys2Proof
end

