-- ==== Sys2Proof/Laws/Memory.lean ====
section
/-! SUPPORT. The laws of memory: read after write, the canonical form kept by every write, and the bounds check. -/

namespace Sys2Proof.Machine

theorem Memory.read_insertCell (m : Memory) (x : Host.Cell) (b : Nat) (fresh : ∀ c ∈ m, c.1 ≠ x.1) :
    (Memory.insertCell m x).read b = if x.1 = b then x.2 else m.read b := by
  induction m with
  | nil => rfl
  | cons c rest ih =>
    have hc : c.1 ≠ x.1 := fresh c (by simp)
    have ih := ih fun d hd => fresh d (by simp [hd])
    unfold Memory.insertCell
    split
    · simp [Memory.read]
    · simp only [Memory.read, ih]
      split <;> split <;> simp_all

theorem Memory.read_filter (m : Memory) (a b : Nat) :
    Memory.read (m.filter fun c => c.1 != a) b = if a = b then initialByte b else m.read b := by
  induction m with
  | nil => simp [Memory.read]
  | cons c rest ih =>
    by_cases h : c.1 = a
    · simp only [List.filter_cons, h, bne_self_eq_false, Bool.false_eq_true, if_false, ih, Memory.read]
      split <;> simp_all
    · simp only [List.filter_cons, bne_iff_ne, ne_eq, h, not_false_eq_true, if_true, Memory.read, ih]
      split <;> split <;> simp_all

/-- Read after write: the written byte at its address, the old byte elsewhere. -/
theorem Memory.read_write (m : Memory) (a : Nat) (v : Byte) (b : Nat) :
    (m.write a v).read b = if a = b then v else m.read b := by
  unfold Memory.write
  split
  · rw [Memory.read_filter]; split <;> simp_all
  · rw [Memory.read_insertCell _ _ _ (by simp)]
    simp only [Memory.read_filter]
    split <;> simp_all

/-- Read after a consecutive store. -/
theorem Memory.read_writeBytes (m : Memory) (a : Nat) (vs : List Byte) (b : Nat) :
    (m.writeBytes a vs).read b = if a ≤ b then vs.getD (b - a) (m.read b) else m.read b := by
  induction vs generalizing m a with
  | nil => simp [Memory.writeBytes]
  | cons v vs ih =>
    rw [Memory.writeBytes, ih, Memory.read_write]
    rcases Nat.lt_trichotomy a b with h | h | h
    · have e : b - a = (b - (a + 1)) + 1 := by omega
      rw [if_pos (by omega), if_neg (by omega), if_pos (by omega), e, List.getD_cons_succ]
    · subst h; simp
    · rw [if_neg (by omega), if_neg (by omega), if_neg (by omega)]

theorem Memory.mem_insertCell (m : Memory) (x c : Host.Cell) : c ∈ Memory.insertCell m x ↔ c = x ∨ c ∈ m := by
  induction m with
  | nil => simp [Memory.insertCell]
  | cons d rest ih =>
    unfold Memory.insertCell
    split <;> simp [ih]
    tauto

theorem Memory.sorted_insertCell (m : Memory) (x : Host.Cell) (fresh : ∀ c ∈ m, c.1 ≠ x.1)
    (sorted : m.Pairwise fun c d => c.1 < d.1) : (Memory.insertCell m x).Pairwise fun c d => c.1 < d.1 := by
  induction m with
  | nil => simp [Memory.insertCell]
  | cons c rest ih =>
    have hc : c.1 ≠ x.1 := fresh c (by simp)
    have hs := List.pairwise_cons.1 sorted
    unfold Memory.insertCell
    split
    · rename_i hlt
      refine List.pairwise_cons.2 ⟨fun d hd => ?_, sorted⟩
      rcases List.mem_cons.1 hd with rfl | hd
      · exact hlt
      · exact hlt.trans (hs.1 d hd)
    · refine List.pairwise_cons.2 ⟨fun d hd => ?_, ih (fun d hd => fresh d (by simp [hd])) hs.2⟩
      rcases (Memory.mem_insertCell _ _ _).1 hd with rfl | hd
      · omega
      · exact hs.1 d hd

/-- Every write inside memory keeps the canonical form. -/
theorem Memory.wf_write (m : Memory) (a : Nat) (v : Byte) (h : m.wf) (ha : a < memSize) : (m.write a v).wf := by
  have hf : Memory.wf (m.filter fun c => c.1 != a) :=
    ⟨h.1.filter _, fun c hc => h.2 c (List.mem_of_mem_filter hc)⟩
  unfold Memory.write
  split
  · exact hf
  · rename_i hv
    refine ⟨Memory.sorted_insertCell _ _ (by simp) hf.1, fun c hc => ?_⟩
    rcases (Memory.mem_insertCell _ _ _).1 hc with rfl | hc
    · exact ⟨ha, hv⟩
    · exact hf.2 c hc

/-- Every consecutive store inside memory keeps the canonical form. -/
theorem Memory.wf_writeBytes (m : Memory) (a : Nat) (vs : List Byte) (h : m.wf) (ha : a + vs.length ≤ memSize) :
    (m.writeBytes a vs).wf := by
  induction vs generalizing m a with
  | nil => exact h
  | cons v vs ih =>
    simp only [List.length_cons] at ha
    exact ih _ _ (Memory.wf_write _ _ _ h (by omega)) (by omega)

/-- The empty list, the memory of reset, is canonical. -/
theorem Memory.wf_nil : Memory.wf [] := by decide

/-- Two canonical memories that read alike at every address are the same list. -/
theorem Memory.wf_ext (m n : Memory) (hm : m.wf) (hn : n.wf) (h : ∀ a, m.read a = n.read a) : m = n := by
  have read_of_lt : ∀ (l : Memory) (a : Nat), (∀ c ∈ l, a < c.1) → l.read a = initialByte a := by
    intro l a hl
    induction l with
    | nil => rfl
    | cons c rest ih =>
      have := hl c (by simp)
      rw [Memory.read, if_neg (by omega), ih fun d hd => hl d (by simp [hd])]
  have tail_wf : ∀ (c : Host.Cell) (l : Memory), Memory.wf (c :: l) → l.wf :=
    fun c l hl => ⟨(List.pairwise_cons.1 hl.1).2, fun d hd => hl.2 d (by simp [hd])⟩
  induction m generalizing n with
  | nil =>
    cases n with
    | nil => rfl
    | cons d n =>
      have := h d.1
      rw [Memory.read, Memory.read, if_pos rfl] at this
      exact absurd this.symm (hn.2 d (by simp)).2
  | cons c m ih =>
    have hcm := List.pairwise_cons.1 hm.1
    cases n with
    | nil =>
      have := h c.1
      rw [Memory.read, Memory.read, if_pos rfl] at this
      exact absurd this (hm.2 c (by simp)).2
    | cons d n =>
      have hdn := List.pairwise_cons.1 hn.1
      have addr : c.1 = d.1 := by
        rcases Nat.lt_trichotomy c.1 d.1 with hlt | heq | hlt
        · have e := h c.1
          rw [Memory.read, if_pos rfl, read_of_lt (d :: n) c.1 (by
            intro x hx
            rcases List.mem_cons.1 hx with rfl | hx
            · exact hlt
            · exact hlt.trans (hdn.1 x hx))] at e
          exact absurd e (hm.2 c (by simp)).2
        · exact heq
        · have e := h d.1
          rw [read_of_lt (c :: m) d.1 (by
            intro x hx
            rcases List.mem_cons.1 hx with rfl | hx
            · exact hlt
            · exact hlt.trans (hcm.1 x hx)), Memory.read, if_pos rfl] at e
          exact absurd e.symm (hn.2 d (by simp)).2
      have val : c.2 = d.2 := by
        have e := h c.1
        rwa [Memory.read, Memory.read, if_pos rfl, if_pos addr.symm] at e
      have rest : m = n := by
        refine ih n (tail_wf c m hm) (tail_wf d n hn) fun a => ?_
        by_cases ha : c.1 = a
        · rw [read_of_lt m a (fun x hx => ha ▸ hcm.1 x hx), read_of_lt n a (fun x hx => ha ▸ addr ▸ hdn.1 x hx)]
        · have e := h a
          rwa [Memory.read, Memory.read, if_neg ha, if_neg (addr ▸ ha)] at e
      rw [rest, Prod.ext addr val]

@[simp] theorem Memory.length_readBytes (m : Memory) (a n : Nat) : (m.readBytes a n).length = n := by
  simp [Memory.readBytes]

theorem Memory.getD_readBytes (m : Memory) (a n k : Nat) (old : Byte) :
    (m.readBytes a n).getD k old = if k < n then m.read (a + k) else old := by
  unfold Memory.readBytes
  split <;> simp_all [List.getD_eq_getElem?_getD]

/-- The bounds check finds nothing exactly when every byte of the access lies in memory. -/
theorem lowestOutside_eq_none (base n : Nat) : lowestOutside base n = none ↔ n = 0 ∨ base + n ≤ memSize := by
  simp only [lowestOutside, List.find?_eq_none, List.mem_map, List.mem_range, decide_eq_true_eq, not_le]
  constructor
  · intro h
    rcases Nat.eq_zero_or_pos n with hn | hn
    · exact .inl hn
    · have := h (base + (n - 1)) ⟨n - 1, by omega, rfl⟩
      omega
  · rintro h x ⟨k, hk, rfl⟩
    omega

/-- What the bounds check finds is the lowest byte of the access outside memory. -/
theorem lowestOutside_eq_some (base n a : Nat) :
    lowestOutside base n = some a ↔ memSize < base + n ∧ 0 < n ∧ a = max base memSize := by
  have key : memSize < base + n → 0 < n → lowestOutside base n = some (max base memSize) := by
    intro h hn
    rw [lowestOutside, List.find?_eq_some_iff_getElem]
    refine ⟨by simp, max base memSize - base, by simp; omega, ?_, fun j hj => ?_⟩
    · simp only [List.getElem_map, List.getElem_range]
      omega
    · simp only [List.getElem_map, List.getElem_range, Bool.not_eq_true', decide_eq_false_iff_not]
      omega
  constructor
  · intro h
    have hn : lowestOutside base n ≠ none := by simp [h]
    rw [ne_eq, lowestOutside_eq_none] at hn
    rw [key (by omega) (by omega)] at h
    exact ⟨by omega, by omega, (Option.some.inj h).symm⟩
  · rintro ⟨h, hn, rfl⟩
    exact key h hn

end Sys2Proof.Machine
end

