-- ==== Sys2Proof/Laws/Devices.lean ====
section
/-! SUPPORT. What the reset operation leaves in memory, and that it is canonical. -/

namespace Sys2Proof.Machine

/-- FONT at 0x000 to 0x04F and 0 above it, whatever the parameter is (70_reset_and_hazards.md R230). -/
theorem read_resetMemory (p : Params) (a : Nat) :
    (resetMemory p).read a = if h : a < 80 then p.font[a] else 0 := by
  rw [resetMemory, Memory.read_writeBytes, if_pos (Nat.zero_le a), Nat.sub_zero, List.getD_eq_getElem?_getD]
  split
  · rename_i h
    rw [List.getElem?_eq_getElem (by simpa using h)]
    simp
  · rename_i h
    rw [List.getElem?_eq_none (by simp; omega), Option.getD_none]
    show fontTable.getD a 0 = 0
    rw [List.getD_eq_getElem?_getD, List.getElem?_eq_none (by show 80 ≤ a; omega), Option.getD_none]

theorem wf_resetMemory (p : Params) : (resetMemory p).wf :=
  Memory.wf_writeBytes _ _ _ Memory.wf_nil (by simp [memSize])

end Sys2Proof.Machine
end

