-- ==== Sys2Proof/Laws/Display.lean ====
section
/-! SUPPORT. The laws of the framebuffer grid and of the sprite loop. -/

namespace Sys2Proof.Machine

theorem Frame.get_flip (f : Frame) (p q : Pixel) : (f.flip p).get q = if p = q then !f.get q else f.get q := by
  obtain ⟨r, c⟩ := p
  obtain ⟨r', c'⟩ := q
  simp only [Frame.get, Frame.flip, Fin.getElem_fin, Vector.getElem_set, Prod.mk.injEq, Fin.ext_iff]
  by_cases hr : r.val = r'.val
  · have : r = r' := Fin.ext hr
    subst this
    by_cases hc : c.val = c'.val
    · have : c = c' := Fin.ext hc
      subst this
      simp
    · simp [hc]
  · simp [hr]

@[simp] theorem Frame.get_clear (p : Pixel) : Frame.clear.get p = false := by
  simp [Frame.get, Frame.clear]

/-- Two grids with the same cells are the same grid. -/
theorem Frame.ext_get {f g : Frame} (h : ∀ p, f.get p = g.get p) : f = g := by
  refine Vector.ext fun r hr => Vector.ext fun c hc => ?_
  exact h (⟨r, hr⟩, ⟨c, hc⟩)

/-- The loop over cells that are all different flips exactly those cells, and collides exactly when one of them was
set before. -/
theorem drawPixels_of_nodup (f : Frame) (ps : List Pixel) (nodup : ps.Nodup) :
    (∀ p, (drawPixels f ps).1.get p = (if p ∈ ps then !f.get p else f.get p)) ∧
      ((drawPixels f ps).2 = true ↔ ∃ p ∈ ps, f.get p = true) := by
  have loop : ∀ (ps : List Pixel) (f : Frame) (hit : Bool), ps.Nodup →
      (∀ p, (ps.foldl drawPixel (f, hit)).1.get p = (if p ∈ ps then !f.get p else f.get p)) ∧
        ((ps.foldl drawPixel (f, hit)).2 = true ↔ hit = true ∨ ∃ p ∈ ps, f.get p = true) := by
    intro ps
    induction ps with
    | nil => intro f hit _; simp
    | cons q ps ih =>
      intro f hit hnd
      obtain ⟨hq, hnd⟩ := List.nodup_cons.1 hnd
      obtain ⟨ihf, ihc⟩ := ih (f.flip q) (hit || f.get q) hnd
      refine ⟨fun p => ?_, ?_⟩
      · rw [List.foldl_cons, drawPixel, ihf, Frame.get_flip]
        by_cases hp : q = p
        · subst hp; simp [hq]
        · simp [hp, Ne.symm hp]
      · rw [List.foldl_cons, drawPixel, ihc]
        have same : (∃ p ∈ ps, (f.flip q).get p = true) ↔ ∃ p ∈ ps, f.get p = true := by
          refine exists_congr fun p => and_congr_right fun hp => ?_
          rw [Frame.get_flip, if_neg (fun e : q = p => hq (e ▸ hp))]
        rw [same]
        simp [or_assoc]
  simpa [drawPixels] using loop ps f false nodup

/-- The cells of one sprite row. -/
theorem mem_rowPixels (ox : Byte) (r : Fin 32) (row : Byte) (p : Pixel) :
    p ∈ rowPixels ox r row ↔
      p.1 = r ∧ ∃ b < 8, row.getLsbD (7 - b) = true ∧ p.2.val = (ox.toNat + b) % 64 := by
  simp only [rowPixels, List.mem_map, List.mem_filter, List.mem_range]
  constructor
  · rintro ⟨b, ⟨hb, hs⟩, rfl⟩
    exact ⟨rfl, b, hb, hs, rfl⟩
  · rintro ⟨rfl, b, hb, hs, hc⟩
    exact ⟨b, ⟨hb, hs⟩, Prod.ext rfl (Fin.ext hc.symm)⟩

/-- The cells of a sprite. -/
theorem mem_spritePixels (ox oy : Byte) (k : Nat) (rows : List Byte) (p : Pixel) :
    p ∈ spritePixels ox oy k rows ↔
      ∃ j, ∃ h : j < rows.length, p.1.val = (oy.toNat + (k + j)) % 32 ∧
        ∃ b < 8, rows[j].getLsbD (7 - b) = true ∧ p.2.val = (ox.toNat + b) % 64 := by
  induction rows generalizing k with
  | nil => simp [spritePixels]
  | cons row rows ih =>
    rw [spritePixels, List.mem_append, ih, mem_rowPixels]
    constructor
    · rintro (⟨hr, hb⟩ | ⟨j, hj, hr, hb⟩)
      · exact ⟨0, by simp, by rw [hr]; rfl, hb⟩
      · exact ⟨j + 1, by simpa using hj, by rw [hr]; congr 2; omega, by simpa using hb⟩
    · rintro ⟨j, hj, hr, hb⟩
      cases j with
      | zero => exact .inl ⟨Fin.ext hr, hb⟩
      | succ j => exact .inr ⟨j, by simpa using hj, by rw [hr]; congr 2; omega, by simpa using hb⟩

theorem nodup_rowPixels (ox : Byte) (r : Fin 32) (row : Byte) : (rowPixels ox r row).Nodup := by
  refine List.Nodup.map_on ?_ (List.nodup_range.filter _)
  intro a ha b hb h
  simp only [List.mem_filter, List.mem_range] at ha hb
  simp only [Prod.mk.injEq, true_and, Fin.ext_iff, Fin.val_ofNat] at h
  omega

/-- A sprite of at most 32 rows never covers one cell twice (44_display.md R161). -/
theorem nodup_spritePixels (ox oy : Byte) (k : Nat) (rows : List Byte) (h : rows.length ≤ 32) :
    (spritePixels ox oy k rows).Nodup := by
  induction rows generalizing k with
  | nil => exact List.nodup_nil
  | cons row rows ih =>
    simp only [List.length_cons] at h
    refine List.Nodup.append (nodup_rowPixels _ _ _) (ih _ (by omega)) fun p hp hq => ?_
    have hr := ((mem_rowPixels _ _ _ _).1 hp).1
    obtain ⟨j, hj, hk, -⟩ := (mem_spritePixels _ _ _ _ _).1 hq
    have : p.1.val = (oy.toNat + k) % 32 := by rw [hr]; rfl
    omega

end Sys2Proof.Machine
end

