-- ==== Sys2Proof/Laws/State.lean ====
section
/-! SUPPORT. What each update of State leaves in each field: one lemma per field per update, so that no later proof
unfolds a record update. -/

namespace Sys2Proof.Machine

@[simp] theorem State.setReg_v (s : State) (r : Reg) (b : Byte) : (s.setReg r b).v = s.v.set r b := rfl
@[simp] theorem State.setReg_i (s : State) (r : Reg) (b : Byte) : (s.setReg r b).i = s.i := rfl
@[simp] theorem State.setReg_pc (s : State) (r : Reg) (b : Byte) : (s.setReg r b).pc = s.pc := rfl
@[simp] theorem State.setReg_stack (s : State) (r : Reg) (b : Byte) : (s.setReg r b).stack = s.stack := rfl
@[simp] theorem State.setReg_sp (s : State) (r : Reg) (b : Byte) : (s.setReg r b).sp = s.sp := rfl
@[simp] theorem State.setReg_dt (s : State) (r : Reg) (b : Byte) : (s.setReg r b).dt = s.dt := rfl
@[simp] theorem State.setReg_st (s : State) (r : Reg) (b : Byte) : (s.setReg r b).st = s.st := rfl
@[simp] theorem State.setReg_mem (s : State) (r : Reg) (b : Byte) : (s.setReg r b).mem = s.mem := rfl
@[simp] theorem State.setReg_fb (s : State) (r : Reg) (b : Byte) : (s.setReg r b).fb = s.fb := rfl
@[simp] theorem State.setReg_key (s : State) (r : Reg) (b : Byte) : (s.setReg r b).key = s.key := rfl
@[simp] theorem State.setReg_redraw (s : State) (r : Reg) (b : Byte) : (s.setReg r b).redraw = s.redraw := rfl
@[simp] theorem State.setReg_params (s : State) (r : Reg) (b : Byte) : (s.setReg r b).params = s.params := rfl
@[simp] theorem State.setReg_draws (s : State) (r : Reg) (b : Byte) : (s.setReg r b).draws = s.draws := rfl
@[simp] theorem State.setReg_report (s : State) (r : Reg) (b : Byte) : (s.setReg r b).report = s.report := rfl

@[simp] theorem State.jumpTo_v (s : State) (a : Word) : (s.jumpTo a).v = s.v := rfl
@[simp] theorem State.jumpTo_i (s : State) (a : Word) : (s.jumpTo a).i = s.i := rfl
@[simp] theorem State.jumpTo_pc (s : State) (a : Word) : (s.jumpTo a).pc = a := rfl
@[simp] theorem State.jumpTo_stack (s : State) (a : Word) : (s.jumpTo a).stack = s.stack := rfl
@[simp] theorem State.jumpTo_sp (s : State) (a : Word) : (s.jumpTo a).sp = s.sp := rfl
@[simp] theorem State.jumpTo_dt (s : State) (a : Word) : (s.jumpTo a).dt = s.dt := rfl
@[simp] theorem State.jumpTo_st (s : State) (a : Word) : (s.jumpTo a).st = s.st := rfl
@[simp] theorem State.jumpTo_mem (s : State) (a : Word) : (s.jumpTo a).mem = s.mem := rfl
@[simp] theorem State.jumpTo_fb (s : State) (a : Word) : (s.jumpTo a).fb = s.fb := rfl
@[simp] theorem State.jumpTo_key (s : State) (a : Word) : (s.jumpTo a).key = s.key := rfl
@[simp] theorem State.jumpTo_redraw (s : State) (a : Word) : (s.jumpTo a).redraw = s.redraw := rfl
@[simp] theorem State.jumpTo_params (s : State) (a : Word) : (s.jumpTo a).params = s.params := rfl
@[simp] theorem State.jumpTo_draws (s : State) (a : Word) : (s.jumpTo a).draws = s.draws := rfl
@[simp] theorem State.jumpTo_report (s : State) (a : Word) : (s.jumpTo a).report = s.report := rfl

@[simp] theorem State.advance_v (s : State) : (s.advance).v = s.v := rfl
@[simp] theorem State.advance_i (s : State) : (s.advance).i = s.i := rfl
@[simp] theorem State.advance_pc (s : State) : (s.advance).pc = s.pc + 2 := rfl
@[simp] theorem State.advance_stack (s : State) : (s.advance).stack = s.stack := rfl
@[simp] theorem State.advance_sp (s : State) : (s.advance).sp = s.sp := rfl
@[simp] theorem State.advance_dt (s : State) : (s.advance).dt = s.dt := rfl
@[simp] theorem State.advance_st (s : State) : (s.advance).st = s.st := rfl
@[simp] theorem State.advance_mem (s : State) : (s.advance).mem = s.mem := rfl
@[simp] theorem State.advance_fb (s : State) : (s.advance).fb = s.fb := rfl
@[simp] theorem State.advance_key (s : State) : (s.advance).key = s.key := rfl
@[simp] theorem State.advance_redraw (s : State) : (s.advance).redraw = s.redraw := rfl
@[simp] theorem State.advance_params (s : State) : (s.advance).params = s.params := rfl
@[simp] theorem State.advance_draws (s : State) : (s.advance).draws = s.draws := rfl
@[simp] theorem State.advance_report (s : State) : (s.advance).report = s.report := rfl

@[simp] theorem State.skipIf_v (s : State) (c : Bool) : (s.skipIf c).v = s.v := rfl
@[simp] theorem State.skipIf_i (s : State) (c : Bool) : (s.skipIf c).i = s.i := rfl
@[simp] theorem State.skipIf_pc (s : State) (c : Bool) : (s.skipIf c).pc = if c then s.pc + 4 else s.pc + 2 := rfl
@[simp] theorem State.skipIf_stack (s : State) (c : Bool) : (s.skipIf c).stack = s.stack := rfl
@[simp] theorem State.skipIf_sp (s : State) (c : Bool) : (s.skipIf c).sp = s.sp := rfl
@[simp] theorem State.skipIf_dt (s : State) (c : Bool) : (s.skipIf c).dt = s.dt := rfl
@[simp] theorem State.skipIf_st (s : State) (c : Bool) : (s.skipIf c).st = s.st := rfl
@[simp] theorem State.skipIf_mem (s : State) (c : Bool) : (s.skipIf c).mem = s.mem := rfl
@[simp] theorem State.skipIf_fb (s : State) (c : Bool) : (s.skipIf c).fb = s.fb := rfl
@[simp] theorem State.skipIf_key (s : State) (c : Bool) : (s.skipIf c).key = s.key := rfl
@[simp] theorem State.skipIf_redraw (s : State) (c : Bool) : (s.skipIf c).redraw = s.redraw := rfl
@[simp] theorem State.skipIf_params (s : State) (c : Bool) : (s.skipIf c).params = s.params := rfl
@[simp] theorem State.skipIf_draws (s : State) (c : Bool) : (s.skipIf c).draws = s.draws := rfl
@[simp] theorem State.skipIf_report (s : State) (c : Bool) : (s.skipIf c).report = s.report := rfl

@[simp] theorem State.pushPc_v (s : State) (h : s.sp.val < 16) : (s.pushPc h).v = s.v := rfl
@[simp] theorem State.pushPc_i (s : State) (h : s.sp.val < 16) : (s.pushPc h).i = s.i := rfl
@[simp] theorem State.pushPc_pc (s : State) (h : s.sp.val < 16) : (s.pushPc h).pc = s.pc := rfl
@[simp] theorem State.pushPc_stack (s : State) (h : s.sp.val < 16) : (s.pushPc h).stack = s.stack.set s.sp.val s.pc := rfl
@[simp] theorem State.pushPc_sp (s : State) (h : s.sp.val < 16) : (s.pushPc h).sp = ⟨s.sp.val + 1, by omega⟩ := rfl
@[simp] theorem State.pushPc_dt (s : State) (h : s.sp.val < 16) : (s.pushPc h).dt = s.dt := rfl
@[simp] theorem State.pushPc_st (s : State) (h : s.sp.val < 16) : (s.pushPc h).st = s.st := rfl
@[simp] theorem State.pushPc_mem (s : State) (h : s.sp.val < 16) : (s.pushPc h).mem = s.mem := rfl
@[simp] theorem State.pushPc_fb (s : State) (h : s.sp.val < 16) : (s.pushPc h).fb = s.fb := rfl
@[simp] theorem State.pushPc_key (s : State) (h : s.sp.val < 16) : (s.pushPc h).key = s.key := rfl
@[simp] theorem State.pushPc_redraw (s : State) (h : s.sp.val < 16) : (s.pushPc h).redraw = s.redraw := rfl
@[simp] theorem State.pushPc_params (s : State) (h : s.sp.val < 16) : (s.pushPc h).params = s.params := rfl
@[simp] theorem State.pushPc_draws (s : State) (h : s.sp.val < 16) : (s.pushPc h).draws = s.draws := rfl
@[simp] theorem State.pushPc_report (s : State) (h : s.sp.val < 16) : (s.pushPc h).report = s.report := rfl

@[simp] theorem State.popPc_v (s : State) (h : 0 < s.sp.val) : (s.popPc h).v = s.v := rfl
@[simp] theorem State.popPc_i (s : State) (h : 0 < s.sp.val) : (s.popPc h).i = s.i := rfl
@[simp] theorem State.popPc_pc (s : State) (h : 0 < s.sp.val) : (s.popPc h).pc = s.stack[s.sp.val - 1] + 2 := rfl
@[simp] theorem State.popPc_stack (s : State) (h : 0 < s.sp.val) : (s.popPc h).stack = s.stack := rfl
@[simp] theorem State.popPc_sp (s : State) (h : 0 < s.sp.val) : (s.popPc h).sp = ⟨s.sp.val - 1, by omega⟩ := rfl
@[simp] theorem State.popPc_dt (s : State) (h : 0 < s.sp.val) : (s.popPc h).dt = s.dt := rfl
@[simp] theorem State.popPc_st (s : State) (h : 0 < s.sp.val) : (s.popPc h).st = s.st := rfl
@[simp] theorem State.popPc_mem (s : State) (h : 0 < s.sp.val) : (s.popPc h).mem = s.mem := rfl
@[simp] theorem State.popPc_fb (s : State) (h : 0 < s.sp.val) : (s.popPc h).fb = s.fb := rfl
@[simp] theorem State.popPc_key (s : State) (h : 0 < s.sp.val) : (s.popPc h).key = s.key := rfl
@[simp] theorem State.popPc_redraw (s : State) (h : 0 < s.sp.val) : (s.popPc h).redraw = s.redraw := rfl
@[simp] theorem State.popPc_params (s : State) (h : 0 < s.sp.val) : (s.popPc h).params = s.params := rfl
@[simp] theorem State.popPc_draws (s : State) (h : 0 < s.sp.val) : (s.popPc h).draws = s.draws := rfl
@[simp] theorem State.popPc_report (s : State) (h : 0 < s.sp.val) : (s.popPc h).report = s.report := rfl

@[simp] theorem State.beginStep_v (s : State) : (s.beginStep).v = s.v := rfl
@[simp] theorem State.beginStep_i (s : State) : (s.beginStep).i = s.i := rfl
@[simp] theorem State.beginStep_pc (s : State) : (s.beginStep).pc = s.pc := rfl
@[simp] theorem State.beginStep_stack (s : State) : (s.beginStep).stack = s.stack := rfl
@[simp] theorem State.beginStep_sp (s : State) : (s.beginStep).sp = s.sp := rfl
@[simp] theorem State.beginStep_dt (s : State) : (s.beginStep).dt = s.dt := rfl
@[simp] theorem State.beginStep_st (s : State) : (s.beginStep).st = s.st := rfl
@[simp] theorem State.beginStep_mem (s : State) : (s.beginStep).mem = s.mem := rfl
@[simp] theorem State.beginStep_fb (s : State) : (s.beginStep).fb = s.fb := rfl
@[simp] theorem State.beginStep_key (s : State) : (s.beginStep).key = s.key := rfl
@[simp] theorem State.beginStep_redraw (s : State) : (s.beginStep).redraw = false := rfl
@[simp] theorem State.beginStep_params (s : State) : (s.beginStep).params = s.params := rfl
@[simp] theorem State.beginStep_draws (s : State) : (s.beginStep).draws = s.draws := rfl
@[simp] theorem State.beginStep_report (s : State) : (s.beginStep).report = none := rfl

@[simp] theorem State.storeData_v (s : State) (bytes : List Byte) : (s.storeData bytes).v = s.v := rfl
@[simp] theorem State.storeData_i (s : State) (bytes : List Byte) : (s.storeData bytes).i = s.i := rfl
@[simp] theorem State.storeData_pc (s : State) (bytes : List Byte) : (s.storeData bytes).pc = s.pc := rfl
@[simp] theorem State.storeData_stack (s : State) (bytes : List Byte) : (s.storeData bytes).stack = s.stack := rfl
@[simp] theorem State.storeData_sp (s : State) (bytes : List Byte) : (s.storeData bytes).sp = s.sp := rfl
@[simp] theorem State.storeData_dt (s : State) (bytes : List Byte) : (s.storeData bytes).dt = s.dt := rfl
@[simp] theorem State.storeData_st (s : State) (bytes : List Byte) : (s.storeData bytes).st = s.st := rfl
@[simp] theorem State.storeData_mem (s : State) (bytes : List Byte) : (s.storeData bytes).mem = s.mem.writeBytes s.i.toNat bytes := rfl
@[simp] theorem State.storeData_fb (s : State) (bytes : List Byte) : (s.storeData bytes).fb = s.fb := rfl
@[simp] theorem State.storeData_key (s : State) (bytes : List Byte) : (s.storeData bytes).key = s.key := rfl
@[simp] theorem State.storeData_redraw (s : State) (bytes : List Byte) : (s.storeData bytes).redraw = s.redraw := rfl
@[simp] theorem State.storeData_params (s : State) (bytes : List Byte) : (s.storeData bytes).params = s.params := rfl
@[simp] theorem State.storeData_draws (s : State) (bytes : List Byte) : (s.storeData bytes).draws = s.draws := rfl
@[simp] theorem State.storeData_report (s : State) (bytes : List Byte) : (s.storeData bytes).report = s.report := rfl

@[simp] theorem State.setRegBlock_v (s : State) (t : List Byte) : (s.setRegBlock t).v = s.v.mapIdx fun k old => t.getD k old := rfl
@[simp] theorem State.setRegBlock_i (s : State) (t : List Byte) : (s.setRegBlock t).i = s.i := rfl
@[simp] theorem State.setRegBlock_pc (s : State) (t : List Byte) : (s.setRegBlock t).pc = s.pc := rfl
@[simp] theorem State.setRegBlock_stack (s : State) (t : List Byte) : (s.setRegBlock t).stack = s.stack := rfl
@[simp] theorem State.setRegBlock_sp (s : State) (t : List Byte) : (s.setRegBlock t).sp = s.sp := rfl
@[simp] theorem State.setRegBlock_dt (s : State) (t : List Byte) : (s.setRegBlock t).dt = s.dt := rfl
@[simp] theorem State.setRegBlock_st (s : State) (t : List Byte) : (s.setRegBlock t).st = s.st := rfl
@[simp] theorem State.setRegBlock_mem (s : State) (t : List Byte) : (s.setRegBlock t).mem = s.mem := rfl
@[simp] theorem State.setRegBlock_fb (s : State) (t : List Byte) : (s.setRegBlock t).fb = s.fb := rfl
@[simp] theorem State.setRegBlock_key (s : State) (t : List Byte) : (s.setRegBlock t).key = s.key := rfl
@[simp] theorem State.setRegBlock_redraw (s : State) (t : List Byte) : (s.setRegBlock t).redraw = s.redraw := rfl
@[simp] theorem State.setRegBlock_params (s : State) (t : List Byte) : (s.setRegBlock t).params = s.params := rfl
@[simp] theorem State.setRegBlock_draws (s : State) (t : List Byte) : (s.setRegBlock t).draws = s.draws := rfl
@[simp] theorem State.setRegBlock_report (s : State) (t : List Byte) : (s.setRegBlock t).report = s.report := rfl

@[simp] theorem State.tick_v (s : State) : (s.tick).v = s.v := rfl
@[simp] theorem State.tick_i (s : State) : (s.tick).i = s.i := rfl
@[simp] theorem State.tick_pc (s : State) : (s.tick).pc = s.pc := rfl
@[simp] theorem State.tick_stack (s : State) : (s.tick).stack = s.stack := rfl
@[simp] theorem State.tick_sp (s : State) : (s.tick).sp = s.sp := rfl
@[simp] theorem State.tick_dt (s : State) : (s.tick).dt = countDown s.dt := rfl
@[simp] theorem State.tick_st (s : State) : (s.tick).st = countDown s.st := rfl
@[simp] theorem State.tick_mem (s : State) : (s.tick).mem = s.mem := rfl
@[simp] theorem State.tick_fb (s : State) : (s.tick).fb = s.fb := rfl
@[simp] theorem State.tick_key (s : State) : (s.tick).key = s.key := rfl
@[simp] theorem State.tick_redraw (s : State) : (s.tick).redraw = s.redraw := rfl
@[simp] theorem State.tick_params (s : State) : (s.tick).params = s.params := rfl
@[simp] theorem State.tick_draws (s : State) : (s.tick).draws = s.draws := rfl
@[simp] theorem State.tick_report (s : State) : (s.tick).report = s.report := rfl

@[simp] theorem State.setKey_v (s : State) (k : Fin 16) (b : Bool) : (s.setKey k b).v = s.v := rfl
@[simp] theorem State.setKey_i (s : State) (k : Fin 16) (b : Bool) : (s.setKey k b).i = s.i := rfl
@[simp] theorem State.setKey_pc (s : State) (k : Fin 16) (b : Bool) : (s.setKey k b).pc = s.pc := rfl
@[simp] theorem State.setKey_stack (s : State) (k : Fin 16) (b : Bool) : (s.setKey k b).stack = s.stack := rfl
@[simp] theorem State.setKey_sp (s : State) (k : Fin 16) (b : Bool) : (s.setKey k b).sp = s.sp := rfl
@[simp] theorem State.setKey_dt (s : State) (k : Fin 16) (b : Bool) : (s.setKey k b).dt = s.dt := rfl
@[simp] theorem State.setKey_st (s : State) (k : Fin 16) (b : Bool) : (s.setKey k b).st = s.st := rfl
@[simp] theorem State.setKey_mem (s : State) (k : Fin 16) (b : Bool) : (s.setKey k b).mem = s.mem := rfl
@[simp] theorem State.setKey_fb (s : State) (k : Fin 16) (b : Bool) : (s.setKey k b).fb = s.fb := rfl
@[simp] theorem State.setKey_key (s : State) (k : Fin 16) (b : Bool) : (s.setKey k b).key = s.key.set k b := rfl
@[simp] theorem State.setKey_redraw (s : State) (k : Fin 16) (b : Bool) : (s.setKey k b).redraw = s.redraw := rfl
@[simp] theorem State.setKey_params (s : State) (k : Fin 16) (b : Bool) : (s.setKey k b).params = s.params := rfl
@[simp] theorem State.setKey_draws (s : State) (k : Fin 16) (b : Bool) : (s.setKey k b).draws = s.draws := rfl
@[simp] theorem State.setKey_report (s : State) (k : Fin 16) (b : Bool) : (s.setKey k b).report = s.report := rfl

@[simp] theorem State.setResultAndFlag_i (s : State) (x : Reg) (result flag : Byte) : (s.setResultAndFlag x result flag).i = s.i := by
  unfold State.setResultAndFlag; split <;> rfl
@[simp] theorem State.setResultAndFlag_pc (s : State) (x : Reg) (result flag : Byte) : (s.setResultAndFlag x result flag).pc = s.pc := by
  unfold State.setResultAndFlag; split <;> rfl
@[simp] theorem State.setResultAndFlag_stack (s : State) (x : Reg) (result flag : Byte) : (s.setResultAndFlag x result flag).stack = s.stack := by
  unfold State.setResultAndFlag; split <;> rfl
@[simp] theorem State.setResultAndFlag_sp (s : State) (x : Reg) (result flag : Byte) : (s.setResultAndFlag x result flag).sp = s.sp := by
  unfold State.setResultAndFlag; split <;> rfl
@[simp] theorem State.setResultAndFlag_dt (s : State) (x : Reg) (result flag : Byte) : (s.setResultAndFlag x result flag).dt = s.dt := by
  unfold State.setResultAndFlag; split <;> rfl
@[simp] theorem State.setResultAndFlag_st (s : State) (x : Reg) (result flag : Byte) : (s.setResultAndFlag x result flag).st = s.st := by
  unfold State.setResultAndFlag; split <;> rfl
@[simp] theorem State.setResultAndFlag_mem (s : State) (x : Reg) (result flag : Byte) : (s.setResultAndFlag x result flag).mem = s.mem := by
  unfold State.setResultAndFlag; split <;> rfl
@[simp] theorem State.setResultAndFlag_fb (s : State) (x : Reg) (result flag : Byte) : (s.setResultAndFlag x result flag).fb = s.fb := by
  unfold State.setResultAndFlag; split <;> rfl
@[simp] theorem State.setResultAndFlag_key (s : State) (x : Reg) (result flag : Byte) : (s.setResultAndFlag x result flag).key = s.key := by
  unfold State.setResultAndFlag; split <;> rfl
@[simp] theorem State.setResultAndFlag_redraw (s : State) (x : Reg) (result flag : Byte) : (s.setResultAndFlag x result flag).redraw = s.redraw := by
  unfold State.setResultAndFlag; split <;> rfl
@[simp] theorem State.setResultAndFlag_params (s : State) (x : Reg) (result flag : Byte) : (s.setResultAndFlag x result flag).params = s.params := by
  unfold State.setResultAndFlag; split <;> rfl
@[simp] theorem State.setResultAndFlag_draws (s : State) (x : Reg) (result flag : Byte) : (s.setResultAndFlag x result flag).draws = s.draws := by
  unfold State.setResultAndFlag; split <;> rfl
@[simp] theorem State.setResultAndFlag_report (s : State) (x : Reg) (result flag : Byte) : (s.setResultAndFlag x result flag).report = s.report := by
  unfold State.setResultAndFlag; split <;> rfl

@[simp] theorem State.setIndexFlag_i (s : State) (i : Word) (b : Byte) : (s.setIndexFlag i b).i = s.i := by
  unfold State.setIndexFlag; split <;> rfl
@[simp] theorem State.setIndexFlag_pc (s : State) (i : Word) (b : Byte) : (s.setIndexFlag i b).pc = s.pc := by
  unfold State.setIndexFlag; split <;> rfl
@[simp] theorem State.setIndexFlag_stack (s : State) (i : Word) (b : Byte) : (s.setIndexFlag i b).stack = s.stack := by
  unfold State.setIndexFlag; split <;> rfl
@[simp] theorem State.setIndexFlag_sp (s : State) (i : Word) (b : Byte) : (s.setIndexFlag i b).sp = s.sp := by
  unfold State.setIndexFlag; split <;> rfl
@[simp] theorem State.setIndexFlag_dt (s : State) (i : Word) (b : Byte) : (s.setIndexFlag i b).dt = s.dt := by
  unfold State.setIndexFlag; split <;> rfl
@[simp] theorem State.setIndexFlag_st (s : State) (i : Word) (b : Byte) : (s.setIndexFlag i b).st = s.st := by
  unfold State.setIndexFlag; split <;> rfl
@[simp] theorem State.setIndexFlag_mem (s : State) (i : Word) (b : Byte) : (s.setIndexFlag i b).mem = s.mem := by
  unfold State.setIndexFlag; split <;> rfl
@[simp] theorem State.setIndexFlag_fb (s : State) (i : Word) (b : Byte) : (s.setIndexFlag i b).fb = s.fb := by
  unfold State.setIndexFlag; split <;> rfl
@[simp] theorem State.setIndexFlag_key (s : State) (i : Word) (b : Byte) : (s.setIndexFlag i b).key = s.key := by
  unfold State.setIndexFlag; split <;> rfl
@[simp] theorem State.setIndexFlag_redraw (s : State) (i : Word) (b : Byte) : (s.setIndexFlag i b).redraw = s.redraw := by
  unfold State.setIndexFlag; split <;> rfl
@[simp] theorem State.setIndexFlag_params (s : State) (i : Word) (b : Byte) : (s.setIndexFlag i b).params = s.params := by
  unfold State.setIndexFlag; split <;> rfl
@[simp] theorem State.setIndexFlag_draws (s : State) (i : Word) (b : Byte) : (s.setIndexFlag i b).draws = s.draws := by
  unfold State.setIndexFlag; split <;> rfl
@[simp] theorem State.setIndexFlag_report (s : State) (i : Word) (b : Byte) : (s.setIndexFlag i b).report = s.report := by
  unfold State.setIndexFlag; split <;> rfl

@[simp] theorem State.blockIndex_v (s : State) (x : Reg) : (s.blockIndex x).v = s.v := by
  unfold State.blockIndex; split <;> rfl
@[simp] theorem State.blockIndex_pc (s : State) (x : Reg) : (s.blockIndex x).pc = s.pc := by
  unfold State.blockIndex; split <;> rfl
@[simp] theorem State.blockIndex_stack (s : State) (x : Reg) : (s.blockIndex x).stack = s.stack := by
  unfold State.blockIndex; split <;> rfl
@[simp] theorem State.blockIndex_sp (s : State) (x : Reg) : (s.blockIndex x).sp = s.sp := by
  unfold State.blockIndex; split <;> rfl
@[simp] theorem State.blockIndex_dt (s : State) (x : Reg) : (s.blockIndex x).dt = s.dt := by
  unfold State.blockIndex; split <;> rfl
@[simp] theorem State.blockIndex_st (s : State) (x : Reg) : (s.blockIndex x).st = s.st := by
  unfold State.blockIndex; split <;> rfl
@[simp] theorem State.blockIndex_mem (s : State) (x : Reg) : (s.blockIndex x).mem = s.mem := by
  unfold State.blockIndex; split <;> rfl
@[simp] theorem State.blockIndex_fb (s : State) (x : Reg) : (s.blockIndex x).fb = s.fb := by
  unfold State.blockIndex; split <;> rfl
@[simp] theorem State.blockIndex_key (s : State) (x : Reg) : (s.blockIndex x).key = s.key := by
  unfold State.blockIndex; split <;> rfl
@[simp] theorem State.blockIndex_redraw (s : State) (x : Reg) : (s.blockIndex x).redraw = s.redraw := by
  unfold State.blockIndex; split <;> rfl
@[simp] theorem State.blockIndex_params (s : State) (x : Reg) : (s.blockIndex x).params = s.params := by
  unfold State.blockIndex; split <;> rfl
@[simp] theorem State.blockIndex_draws (s : State) (x : Reg) : (s.blockIndex x).draws = s.draws := by
  unfold State.blockIndex; split <;> rfl
@[simp] theorem State.blockIndex_report (s : State) (x : Reg) : (s.blockIndex x).report = s.report := by
  unfold State.blockIndex; split <;> rfl

end Sys2Proof.Machine
end

