-- ==== Sys2Proof/Laws/Ops.lean ====
section
/-! SUPPORT. One lemma per shared operation that says everything it can do: registers, flags, operands, the checked data
access, the fetch, the unknown-opcode path and the step. -/

namespace Sys2Proof.Machine

@[simp] theorem State.reg_setReg (s : State) (r q : Reg) (b : Byte) :
    (s.setReg r b).reg q = if r = q then b else s.reg q := by
  simp [State.reg, State.setReg, Vector.getElem_set, Fin.ext_iff]

/-- A register is read from the field v alone. -/
theorem State.reg_congr {s t : State} (h : t.v = s.v) (r : Reg) : t.reg r = s.reg r := by
  unfold State.reg; rw [h]

@[simp] theorem State.reg_advance (s : State) (r : Reg) : s.advance.reg r = s.reg r := rfl
@[simp] theorem State.reg_jumpTo (s : State) (a : Word) (r : Reg) : (s.jumpTo a).reg r = s.reg r := rfl
@[simp] theorem State.reg_skipIf (s : State) (c : Bool) (r : Reg) : (s.skipIf c).reg r = s.reg r := rfl
@[simp] theorem State.reg_beginStep (s : State) (r : Reg) : s.beginStep.reg r = s.reg r := rfl
@[simp] theorem State.reg_pushPc (s : State) (h : s.sp.val < 16) (r : Reg) : (s.pushPc h).reg r = s.reg r := rfl
@[simp] theorem State.reg_popPc (s : State) (h : 0 < s.sp.val) (r : Reg) : (s.popPc h).reg r = s.reg r := rfl
@[simp] theorem State.reg_storeData (s : State) (bs : List Byte) (r : Reg) : (s.storeData bs).reg r = s.reg r := rfl

@[simp] theorem State.reg_blockIndex (s : State) (x r : Reg) : (s.blockIndex x).reg r = s.reg r :=
  State.reg_congr (State.blockIndex_v s x) r

/-- I after a block transfer, for both values of BLOCK_I_INCREMENT. -/
theorem State.blockIndex_i (s : State) (x : Reg) :
    (s.blockIndex x).i =
      if s.params.blockIIncrement = .xPlusOne then BitVec.ofNat 16 (s.i.toNat + x.val + 1) else s.i := by
  unfold State.blockIndex; split <;> simp_all

/-- The registers after a result and a flag are written, for both values of VF_WRITE_ORDER. -/
theorem State.reg_setResultAndFlag (s : State) (x q : Reg) (result flag : Byte) :
    (s.setResultAndFlag x result flag).reg q =
      if q = vf ∧ (x = vf → s.params.vfWriteOrder = .flagLast) then flag else if q = x then result else s.reg q := by
  unfold State.setResultAndFlag
  by_cases hq : vf = q
  · subst hq
    by_cases hx : x = vf
    · subst hx
      cases s.params.vfWriteOrder <;> simp
    · cases h : s.params.vfWriteOrder <;> simp [hx]
  · have hq' : q ≠ vf := fun e => hq e.symm
    cases h : s.params.vfWriteOrder <;> simp [hq, hq', eq_comm]

/-- The registers after ADD I's flag, for every value of ADDI_OVERFLOW_LIMIT. -/
theorem State.reg_setIndexFlag (s : State) (i : Word) (b : Byte) (q : Reg) :
    (s.setIndexFlag i b).reg q =
      match s.params.addiOverflowLimit with
      | none => s.reg q
      | some limit => if vf = q then indexOverflowFlag limit i b else s.reg q := by
  unfold State.setIndexFlag
  cases s.params.addiOverflowLimit <;> simp

theorem State.reg_setRegBlock (s : State) (t : List Byte) (q : Reg) :
    (s.setRegBlock t).reg q = t.getD q.val (s.reg q) := by
  simp [State.reg, State.setRegBlock]

@[simp] theorem State.length_regBlock (s : State) (x : Reg) : (s.regBlock x).length = x.val + 1 := by
  simp [State.regBlock]

theorem State.getD_regBlock (s : State) (x : Reg) (k : Nat) (old : Byte) :
    (s.regBlock x).getD k old = if h : k ≤ x.val then s.reg ⟨k, by omega⟩ else old := by
  unfold State.regBlock State.reg
  split
  · rename_i h
    have hk : k < s.v.toList.length := by simp; omega
    rw [List.getD_eq_getElem?_getD, List.getElem?_take_of_lt (by omega), List.getElem?_eq_getElem hk]
    simp
  · rename_i h
    rw [List.getD_eq_getElem?_getD, List.getElem?_take_eq_none (by omega)]
    rfl

theorem flagByte_toNat (c : Bool) : (flagByte c).toNat = if c then 1 else 0 := by cases c <;> rfl

/-- The checked data access: the access where all bytes lie in memory, else the fault with the lowest that does not. -/
theorem State.checkData_eq (s : State) (w : Word) (n : Nat) (access : Result) :
    s.checkData w n access =
      if n = 0 ∨ s.i.toNat + n ≤ memSize then access
      else .fault (.addressing (max s.i.toNat memSize) s.pc (some w)) := by
  unfold State.checkData
  split
  · rename_i a h
    obtain ⟨h₁, h₂, rfl⟩ := (lowestOutside_eq_some _ _ _).1 h
    rw [if_neg (by omega)]
  · rename_i h
    rw [if_pos ((lowestOutside_eq_none _ _).1 h)]

/-- The fetch: the big-endian word where both bytes lie in memory, else the fetch fault. -/
theorem State.fetch_eq (s : State) :
    s.fetch = if s.pc.toNat + 1 < memSize
      then .ok (wordOfBytes (s.mem.read s.pc.toNat) (s.mem.read (s.pc.toNat + 1)))
      else .error (.addressing (max s.pc.toNat memSize) s.pc none) := by
  unfold State.fetch
  split
  · rename_i a h
    obtain ⟨h₁, h₂, rfl⟩ := (lowestOutside_eq_some _ _ _).1 h
    rw [if_neg (by omega)]
  · rename_i h
    have := (lowestOutside_eq_none _ _).1 h
    rw [if_pos (by omega)]

@[simp] theorem State.fetch_beginStep (s : State) : s.beginStep.fetch = s.fetch := rfl

theorem wordOfBytes_toNat (hi lo : Byte) : (wordOfBytes hi lo).toNat = hi.toNat * 256 + lo.toNat := by
  unfold wordOfBytes
  rw [BitVec.toNat_append, ← Nat.shiftLeft_add_eq_or_of_lt lo.isLt, Nat.shiftLeft_eq]

theorem wordHigh_wordOfBytes (hi lo : Byte) : wordHigh (wordOfBytes hi lo) = hi := by
  apply BitVec.eq_of_toNat_eq
  have := hi.isLt; have := lo.isLt
  simp only [wordHigh, BitVec.extractLsb'_toNat, wordOfBytes_toNat, Nat.shiftRight_eq_div_pow]
  omega

theorem wordLow_wordOfBytes (hi lo : Byte) : wordLow (wordOfBytes hi lo) = lo := by
  apply BitVec.eq_of_toNat_eq
  have := hi.isLt; have := lo.isLt
  simp only [wordLow, BitVec.extractLsb'_toNat, wordOfBytes_toNat, Nat.shiftRight_eq_div_pow]
  omega

/-- The bytes of a word give the word back. -/
theorem wordOfBytes_bytesOfWord (w : Word) : wordOfBytes (wordHigh w) (wordLow w) = w := by
  apply BitVec.eq_of_toNat_eq
  have := w.isLt
  simp only [wordOfBytes_toNat, wordHigh, wordLow, BitVec.extractLsb'_toNat, Nat.shiftRight_eq_div_pow]
  omega

/-- The key index: the value itself up to 0x0F, then the policy. -/
theorem keyIndex_eq (policy : KeyIndexPolicy) (v : Byte) :
    keyIndex policy v =
      if v.toNat < 16 ∨ policy = .lowNibble then some (Fin.ofNat 16 v.toNat) else none := by
  unfold keyIndex
  by_cases h : v.toNat < 16
  · rw [dif_pos h, if_pos (.inl h)]
    congr 1
    exact Fin.ext (Nat.mod_eq_of_lt h).symm
  · rw [dif_neg h]
    cases policy <;> simp [h]

/-- No key is pressed exactly when the key scan finds none. -/
theorem State.firstKey_eq_none (s : State) : s.firstKey = none ↔ ∀ k : Fin 16, s.key[k] = false := by
  unfold State.firstKey
  rw [List.findIdx?_eq_none_iff]
  constructor
  · intro h k
    have := h s.key[k] (by simp)
    simpa using this
  · intro h b hb
    obtain ⟨k, hk, rfl⟩ := List.getElem_of_mem hb
    simp only [Vector.length_toList] at hk
    simpa using h ⟨k, hk⟩

/-- The key scan finds the lowest pressed key. -/
theorem State.firstKey_eq_some (s : State) (k : Nat) :
    s.firstKey = some k ↔ ∃ h : k < 16, s.key[k] = true ∧ ∀ j (hj : j < k), s.key[j] = false := by
  unfold State.firstKey
  rw [List.findIdx?_eq_some_iff_getElem]
  simp

/-- A step that gives a next state ran the decoded instruction or took the unknown-opcode path, at the step entry. -/
theorem step_next_cases {s t : State} (h : step s = .next t) :
    ∃ w, s.fetch = .ok w ∧
      ((∃ i, decodeWord w = .ok i ∧ exec i s.beginStep = .next t) ∨
        (∃ e, decodeWord w = .error e ∧ unknownOpcode w s.beginStep = .next t)) := by
  unfold step at h
  rw [State.fetch_beginStep] at h
  split at h
  · cases h
  · rename_i w hw
    refine ⟨w, hw, ?_⟩
    split at h
    · rename_i i hi; exact .inl ⟨i, hi, h⟩
    · rename_i e he; exact .inr ⟨e, he, h⟩

/-- The unknown-opcode path gives a next state only when it is not fatal, and then only reports and advances. -/
theorem unknownOpcode_next_cases {w : Word} {s t : State} (h : unknownOpcode w s = .next t) :
    s.params.unknownOpcodeFatal = false ∧ t = { s with report := some ⟨s.pc, w⟩, pc := s.pc + 2 } := by
  unfold unknownOpcode at h
  split at h
  · cases h
  · rename_i hf
    exact ⟨by simpa using hf, by cases h; rfl⟩

end Sys2Proof.Machine
end

