-- ==== Sys2Proof/Laws/Exec.lean ====
section
/-! SUPPORT. Inversion of exec for the instructions that do not always give a next state or that branch: when one gives a
next state, which one and under what condition. The other instructions give their next state outright. -/

namespace Sys2Proof.Machine

theorem exec_call_next {nnn : Addr12} {s t : State} (h : exec (.call nnn) s = .next t) :
    ∃ h : s.sp.val < 16, t = (s.pushPc h).jumpTo (addrOperand nnn) := by
  simp only [exec, execCall] at h
  split at h
  · exact ⟨‹_›, by cases h; rfl⟩
  · cases h

theorem exec_ret_next {s t : State} (h : exec .ret s = .next t) : ∃ h : 0 < s.sp.val, t = s.popPc h := by
  simp only [exec, execRet] at h
  split at h
  · exact ⟨‹_›, by cases h; rfl⟩
  · cases h

theorem exec_sys_next {nnn : Addr12} {s t : State} (h : exec (.sys nnn) s = .next t) :
    s.params.unknownOpcodeFatal = false ∧ t = { s with report := some ⟨s.pc, encode (.sys nnn)⟩, pc := s.pc + 2 } :=
  unknownOpcode_next_cases h

/-- A checked data access that gives a next state lay in memory and is the access. -/
theorem State.checkData_next {s t : State} {w : Word} {n : Nat} {access : Result}
    (h : s.checkData w n access = .next t) : (n = 0 ∨ s.i.toNat + n ≤ memSize) ∧ access = .next t := by
  rw [State.checkData_eq] at h
  split at h
  · exact ⟨‹_›, h⟩
  · cases h

theorem exec_drw_next {x y : Reg} {n : Nibble} {s t : State} (h : exec (.drw x y n) s = .next t) :
    (n.toNat = 0 ∨ s.i.toNat + n.toNat ≤ memSize) ∧
      t = ({ s with fb := (s.drawSprite x y n.toNat).1, redraw := true }.setReg vf
        (flagByte (s.drawSprite x y n.toNat).2)).advance := by
  obtain ⟨hb, h⟩ := State.checkData_next h
  exact ⟨hb, by cases h; rfl⟩

theorem exec_skp_next {x : Reg} {s t : State} (h : exec (.skp x) s = .next t) :
    ∃ k, keyIndex s.params.keyIndexPolicy (s.reg x) = some k ∧ t = s.skipIf s.key[k] := by
  simp only [exec, execSkp, skipOnKey] at h
  split at h
  · rename_i k hk
    exact ⟨k, hk, by cases h; cases s.key[k] <;> rfl⟩
  · cases h

theorem exec_sknp_next {x : Reg} {s t : State} (h : exec (.sknp x) s = .next t) :
    ∃ k, keyIndex s.params.keyIndexPolicy (s.reg x) = some k ∧ t = s.skipIf (!s.key[k]) := by
  simp only [exec, execSknp, skipOnKey] at h
  split at h
  · rename_i k hk
    exact ⟨k, hk, by cases h; cases s.key[k] <;> rfl⟩
  · cases h

theorem exec_ldVxK_next {x : Reg} {s t : State} (h : exec (.ldVxK x) s = .next t) :
    (∃ k, s.firstKey = some k ∧ t = (s.setReg x (BitVec.ofNat 8 k)).advance) ∨ s.firstKey = none ∧ t = s := by
  simp only [exec, execLdVxK] at h
  split at h
  · rename_i k hk
    exact .inl ⟨k, hk, by cases h; rfl⟩
  · rename_i hk
    exact .inr ⟨hk, by cases h; rfl⟩

theorem exec_ldB_next {x : Reg} {s t : State} (h : exec (.ldB x) s = .next t) :
    s.i.toNat + 3 ≤ memSize ∧ t = (s.storeData (bcdDigits (s.reg x))).advance := by
  obtain ⟨hb, h⟩ := State.checkData_next h
  exact ⟨by omega, by cases h; rfl⟩

theorem exec_ldMemVx_next {x : Reg} {s t : State} (h : exec (.ldMemVx x) s = .next t) :
    s.i.toNat + (x.val + 1) ≤ memSize ∧ t = ((s.storeData (s.regBlock x)).blockIndex x).advance := by
  obtain ⟨hb, h⟩ := State.checkData_next h
  exact ⟨by omega, by cases h; rfl⟩

theorem exec_ldVxMem_next {x : Reg} {s t : State} (h : exec (.ldVxMem x) s = .next t) :
    s.i.toNat + (x.val + 1) ≤ memSize ∧
      t = ((s.setRegBlock (s.dataBytes (x.val + 1))).blockIndex x).advance := by
  obtain ⟨hb, h⟩ := State.checkData_next h
  exact ⟨by omega, by cases h; rfl⟩

end Sys2Proof.Machine
end

