-- ==== Sys2Proof/Laws/PerInstr.lean ====
section
/-! SUPPORT. The family TableRow: the word of every instruction matches the match and mask of its row of
spec/opcode_table.json. -/

namespace Sys2Proof.Laws

/-- The match and the mask of an instruction's row of spec/opcode_table.json. -/
def rowOf : Instr → Word × Word
  | .cls => (0x00E0#16, 0xFFFF#16)
  | .ret => (0x00EE#16, 0xFFFF#16)
  | .sys _ => (0x0000#16, 0xF000#16)
  | .jp _ => (0x1000#16, 0xF000#16)
  | .call _ => (0x2000#16, 0xF000#16)
  | .seImm _ _ => (0x3000#16, 0xF000#16)
  | .sneImm _ _ => (0x4000#16, 0xF000#16)
  | .seReg _ _ => (0x5000#16, 0xF00F#16)
  | .ldVxNn _ _ => (0x6000#16, 0xF000#16)
  | .addVxNn _ _ => (0x7000#16, 0xF000#16)
  | .ldVxVy _ _ => (0x8000#16, 0xF00F#16)
  | .orVxVy _ _ => (0x8001#16, 0xF00F#16)
  | .andVxVy _ _ => (0x8002#16, 0xF00F#16)
  | .xorVxVy _ _ => (0x8003#16, 0xF00F#16)
  | .addVxVy _ _ => (0x8004#16, 0xF00F#16)
  | .sub _ _ => (0x8005#16, 0xF00F#16)
  | .shr _ _ => (0x8006#16, 0xF00F#16)
  | .subn _ _ => (0x8007#16, 0xF00F#16)
  | .shl _ _ => (0x800E#16, 0xF00F#16)
  | .sneReg _ _ => (0x9000#16, 0xF00F#16)
  | .ldI _ => (0xA000#16, 0xF000#16)
  | .jpV0 _ => (0xB000#16, 0xF000#16)
  | .rnd _ _ => (0xC000#16, 0xF000#16)
  | .drw _ _ _ => (0xD000#16, 0xF000#16)
  | .skp _ => (0xE09E#16, 0xF0FF#16)
  | .sknp _ => (0xE0A1#16, 0xF0FF#16)
  | .ldVxDt _ => (0xF007#16, 0xF0FF#16)
  | .ldVxK _ => (0xF00A#16, 0xF0FF#16)
  | .ldDtVx _ => (0xF015#16, 0xF0FF#16)
  | .ldStVx _ => (0xF018#16, 0xF0FF#16)
  | .addI _ => (0xF01E#16, 0xF0FF#16)
  | .ldF _ => (0xF029#16, 0xF0FF#16)
  | .ldB _ => (0xF033#16, 0xF0FF#16)
  | .ldMemVx _ => (0xF055#16, 0xF0FF#16)
  | .ldVxMem _ => (0xF065#16, 0xF0FF#16)

/-- The word of i, under the mask of its row, is the match of its row. -/
def TableRow.Statement (i : Instr) : Prop := encode i &&& (rowOf i).2 = (rowOf i).1

theorem nibble_and_mask (g : Nibble) : g &&& 15#4 = g := BitVec.and_allOnes

theorem byte_and_mask (nn : Byte) : nn &&& 255#8 = nn := BitVec.and_allOnes

theorem packAddr_group (g : Nibble) (nnn : Addr12) : packAddr g nnn &&& 0xF000#16 = packAddr g 0#12 := by
  rw [show 0xF000#16 = packAddr 0xF#4 0#12 from rfl]
  unfold packAddr
  rw [BitVec.and_append]
  simp [nibble_and_mask]

theorem packXNN_group (g : Nibble) (x : Reg) (nn : Byte) : packXNN g x nn &&& 0xF000#16 = packXNN g 0 0 := by
  rw [show 0xF000#16 = packXNN 0xF#4 0 0#8 from rfl]
  unfold packXNN
  rw [BitVec.and_append, BitVec.and_append]
  simp [regBits, nibble_and_mask]

theorem packXNN_function (g : Nibble) (x : Reg) (nn : Byte) : packXNN g x nn &&& 0xF0FF#16 = packXNN g 0 nn := by
  rw [show 0xF0FF#16 = packXNN 0xF#4 0 0xFF#8 from rfl]
  unfold packXNN
  rw [BitVec.and_append, BitVec.and_append]
  simp [regBits, nibble_and_mask, byte_and_mask]

theorem packXYN_group (g : Nibble) (x y : Reg) (n : Nibble) : packXYN g x y n &&& 0xF000#16 = packXYN g 0 0 0 := by
  rw [show 0xF000#16 = packXYN 0xF#4 0 0 0#4 from rfl]
  unfold packXYN
  rw [BitVec.and_append, BitVec.and_append, BitVec.and_append]
  simp [regBits, nibble_and_mask]

theorem packXYN_function (g : Nibble) (x y : Reg) (n : Nibble) :
    packXYN g x y n &&& 0xF00F#16 = packXYN g 0 0 n := by
  rw [show 0xF00F#16 = packXYN 0xF#4 0 0 0xF#4 from rfl]
  unfold packXYN
  rw [BitVec.and_append, BitVec.and_append, BitVec.and_append]
  simp [regBits, nibble_and_mask]

theorem TableRow.cls : TableRow.Statement .cls := rfl
theorem TableRow.ret : TableRow.Statement .ret := rfl
theorem TableRow.sys (nnn : Addr12) : TableRow.Statement (.sys nnn) := packAddr_group 0x0 nnn
theorem TableRow.jp (nnn : Addr12) : TableRow.Statement (.jp nnn) := packAddr_group 0x1 nnn
theorem TableRow.call (nnn : Addr12) : TableRow.Statement (.call nnn) := packAddr_group 0x2 nnn
theorem TableRow.seImm (x : Reg) (nn : Byte) : TableRow.Statement (.seImm x nn) := packXNN_group 0x3 x nn
theorem TableRow.sneImm (x : Reg) (nn : Byte) : TableRow.Statement (.sneImm x nn) := packXNN_group 0x4 x nn
theorem TableRow.seReg (x : Reg) (y : Reg) : TableRow.Statement (.seReg x y) := packXYN_function 0x5 x y 0x0
theorem TableRow.ldVxNn (x : Reg) (nn : Byte) : TableRow.Statement (.ldVxNn x nn) := packXNN_group 0x6 x nn
theorem TableRow.addVxNn (x : Reg) (nn : Byte) : TableRow.Statement (.addVxNn x nn) := packXNN_group 0x7 x nn
theorem TableRow.ldVxVy (x : Reg) (y : Reg) : TableRow.Statement (.ldVxVy x y) := packXYN_function 0x8 x y 0x0
theorem TableRow.orVxVy (x : Reg) (y : Reg) : TableRow.Statement (.orVxVy x y) := packXYN_function 0x8 x y 0x1
theorem TableRow.andVxVy (x : Reg) (y : Reg) : TableRow.Statement (.andVxVy x y) := packXYN_function 0x8 x y 0x2
theorem TableRow.xorVxVy (x : Reg) (y : Reg) : TableRow.Statement (.xorVxVy x y) := packXYN_function 0x8 x y 0x3
theorem TableRow.addVxVy (x : Reg) (y : Reg) : TableRow.Statement (.addVxVy x y) := packXYN_function 0x8 x y 0x4
theorem TableRow.sub (x : Reg) (y : Reg) : TableRow.Statement (.sub x y) := packXYN_function 0x8 x y 0x5
theorem TableRow.shr (x : Reg) (y : Reg) : TableRow.Statement (.shr x y) := packXYN_function 0x8 x y 0x6
theorem TableRow.subn (x : Reg) (y : Reg) : TableRow.Statement (.subn x y) := packXYN_function 0x8 x y 0x7
theorem TableRow.shl (x : Reg) (y : Reg) : TableRow.Statement (.shl x y) := packXYN_function 0x8 x y 0xE
theorem TableRow.sneReg (x : Reg) (y : Reg) : TableRow.Statement (.sneReg x y) := packXYN_function 0x9 x y 0x0
theorem TableRow.ldI (nnn : Addr12) : TableRow.Statement (.ldI nnn) := packAddr_group 0xA nnn
theorem TableRow.jpV0 (nnn : Addr12) : TableRow.Statement (.jpV0 nnn) := packAddr_group 0xB nnn
theorem TableRow.rnd (x : Reg) (nn : Byte) : TableRow.Statement (.rnd x nn) := packXNN_group 0xC x nn
theorem TableRow.drw (x : Reg) (y : Reg) (n : Nibble) : TableRow.Statement (.drw x y n) := packXYN_group 0xD x y n
theorem TableRow.skp (x : Reg) : TableRow.Statement (.skp x) := packXNN_function 0xE x 0x9E
theorem TableRow.sknp (x : Reg) : TableRow.Statement (.sknp x) := packXNN_function 0xE x 0xA1
theorem TableRow.ldVxDt (x : Reg) : TableRow.Statement (.ldVxDt x) := packXNN_function 0xF x 0x07
theorem TableRow.ldVxK (x : Reg) : TableRow.Statement (.ldVxK x) := packXNN_function 0xF x 0x0A
theorem TableRow.ldDtVx (x : Reg) : TableRow.Statement (.ldDtVx x) := packXNN_function 0xF x 0x15
theorem TableRow.ldStVx (x : Reg) : TableRow.Statement (.ldStVx x) := packXNN_function 0xF x 0x18
theorem TableRow.addI (x : Reg) : TableRow.Statement (.addI x) := packXNN_function 0xF x 0x1E
theorem TableRow.ldF (x : Reg) : TableRow.Statement (.ldF x) := packXNN_function 0xF x 0x29
theorem TableRow.ldB (x : Reg) : TableRow.Statement (.ldB x) := packXNN_function 0xF x 0x33
theorem TableRow.ldMemVx (x : Reg) : TableRow.Statement (.ldMemVx x) := packXNN_function 0xF x 0x55
theorem TableRow.ldVxMem (x : Reg) : TableRow.Statement (.ldVxMem x) := packXNN_function 0xF x 0x65

end Sys2Proof.Laws
end

