-- ==== Sys2Proof/Laws/Ports.lean ====
section
/-! SUPPORT. What the Step port answers, and an endless schedule as the schedules of its first operations. -/

namespace Sys2Proof.Machine

theorem transact_step_next {s t : State} (h : step s = .next t) :
    transact .step s = (.stepCompleted t.report.toList, t) := by
  simp only [transact, h]

theorem transact_step_fault {s : State} {f : Fault} (h : step s = .fault f) :
    transact .step s = (.stepFaulted f, s.beginStep) := by
  simp only [transact, h]

theorem runPorts_append (ps qs : List Port) (s : State) : runPorts (ps ++ qs) s = runPorts qs (runPorts ps s) := by
  induction ps generalizing s with
  | nil => rfl
  | cons p ps ih => exact ih _

/-- Before the n-th operation the schedule is a list of n operations. -/
theorem stateAt_eq_runPorts (sched : Schedule) (s : State) (n : Nat) :
    stateAt sched s n = runPorts ((List.range n).map sched) s := by
  induction n with
  | zero => rfl
  | succ n ih =>
    rw [List.range_succ, List.map_append, runPorts_append, ← ih]
    rfl

end Sys2Proof.Machine
end

