-- ==== Sys2Proof/Laws/Step.lean ====
section
/-! SUPPORT. The step and the operations in the terms of Safety.lean: one equation for the step, the inversion of a step
that gives a next state, and what the terms of the statements are in terms of the model's operations. -/

namespace Sys2Proof.Machine

theorem State.wordAtPc_lt (s : State) : s.wordAtPc < 65536 := by
  have h₁ := (s.mem.read s.pc.toNat).isLt
  have h₂ := (s.mem.read (s.pc.toNat + 1)).isLt
  simp only [State.wordAtPc]
  omega

theorem State.fetch_of_fetchable {s : State} (h : s.Fetchable) : s.fetch = .ok (BitVec.ofNat 16 s.wordAtPc) := by
  rw [State.fetch_eq, if_pos (show s.pc.toNat + 1 < memSize from h)]
  congr 1
  apply BitVec.eq_of_toNat_eq
  have := s.wordAtPc_lt
  simp only [wordOfBytes_toNat, BitVec.toNat_ofNat, State.wordAtPc] at *
  omega

theorem State.fetch_of_not_fetchable {s : State} (h : ¬ s.Fetchable) :
    s.fetch = .error (.addressing (max s.pc.toNat memSize) s.pc none) := by
  rw [State.fetch_eq, if_neg (show ¬ s.pc.toNat + 1 < memSize from h)]

/-- A step that gives a next state: of the fetched instruction at the step entry, or of the unknown-opcode path. -/
theorem step_next_fetches {s t : State} (h : step s = .next t) :
    (∃ i, s.Fetches i ∧ exec i s.beginStep = .next t) ∨
      (s.Fetchable ∧ (∃ e, decodeWord (BitVec.ofNat 16 s.wordAtPc) = .error e) ∧
        s.params.unknownOpcodeFatal = false ∧
        t = { s.beginStep with report := some ⟨s.pc, BitVec.ofNat 16 s.wordAtPc⟩, pc := s.pc + 2 }) := by
  obtain ⟨w, hw, h⟩ := step_next_cases h
  have hf : s.Fetchable := by
    by_contra hc
    rw [State.fetch_of_not_fetchable hc] at hw
    cases hw
  rw [State.fetch_of_fetchable hf] at hw
  cases hw
  rcases h with ⟨i, hi, he⟩ | ⟨e, he, hu⟩
  · exact .inl ⟨i, ⟨hf, hi⟩, he⟩
  · obtain ⟨h₁, h₂⟩ := unknownOpcode_next_cases hu
    exact .inr ⟨hf, ⟨e, he⟩, h₁, h₂⟩

/-- A step fetches at most one instruction. -/
theorem State.Fetches.unique {s : State} {i j : Instr} (hi : s.Fetches i) (hj : s.Fetches j) : i = j := by
  have := hi.2.symm.trans hj.2
  cases this
  rfl

/-- A write to one register and the advance change only that register and pc. -/
theorem onlyChanges_setReg_advance (s : State) (x : Reg) (b : Byte) :
    OnlyChanges (fun p => p = .reg x ∨ p = .pc) s (s.setReg x b).advance := by
  intro p hp
  cases p <;> simp at hp <;> simp [SamePart]
  intro e
  exact absurd e.symm hp

/-- A write of result and flag and the advance change only that register, VF and pc. -/
theorem onlyChanges_setResultAndFlag_advance (s : State) (x : Reg) (a b : Byte) :
    OnlyChanges (fun p => p = .reg x ∨ p = .reg vf ∨ p = .pc) s (s.setResultAndFlag x a b).advance := by
  intro p hp
  cases p <;> simp at hp <;> simp [SamePart]
  rw [State.reg_setResultAndFlag]
  simp [hp]

theorem addrOperand_toNat (nnn : Addr12) : (addrOperand nnn).toNat = nnn.toNat := by
  have := nnn.isLt
  simp [addrOperand]
  omega

theorem shiftOperand_toNat (s : State) (x y : Reg) : (s.shiftOperand x y).toNat = s.shifted x y := by
  unfold State.shiftOperand State.shifted
  cases s.params.shiftSource <;> rfl

theorem lowestOutside_iff (base n a : Nat) : LowestOutside base n a ↔ lowestOutside base n = some a := by
  rw [lowestOutside_eq_some]
  unfold LowestOutside memSize
  constructor
  · rintro ⟨h₁, h₂, h₃, h₄⟩
    refine ⟨by omega, by omega, ?_⟩
    by_contra hc
    have := h₄ (max base 4096) (by omega) (by omega)
    omega
  · rintro ⟨h₁, h₂, rfl⟩
    exact ⟨by omega, by omega, by omega, fun c _ _ => by omega⟩

theorem testsKey_iff (s : State) (x : Reg) (k : Fin 16) :
    s.TestsKey x k ↔ keyIndex s.params.keyIndexPolicy (s.reg x) = some k := by
  have hk := k.isLt
  rw [keyIndex_eq]
  unfold State.TestsKey
  constructor
  · rintro (h | ⟨h, h'⟩)
    · rw [if_pos (.inl (by omega)), h]
      congr 1
      exact Fin.ext (Nat.mod_eq_of_lt hk)
    · rw [if_pos (.inr h)]
      congr 1
      exact Fin.ext h'
  · intro h
    split at h
    · rename_i hc
      cases h
      rcases hc with hc | hc
      · exact .inl (Nat.mod_eq_of_lt hc).symm
      · exact .inr ⟨hc, rfl⟩
    · cases h

/-- The cells the sprite loop visits are the covered cells. -/
theorem mem_sprite_iff_covers (s : State) (x y : Reg) (n : Nibble) (p : Pixel) :
    p ∈ spritePixels (s.reg x) (s.reg y) 0 (s.dataBytes n.toNat) ↔ s.Covers x y n p := by
  rw [mem_spritePixels]
  simp only [State.dataBytes, Memory.length_readBytes, State.Covers]
  constructor
  · rintro ⟨j, hj, hr, b, hb, h₁, h₂⟩
    exact ⟨j, hj, b, hb, by simpa [Memory.readBytes] using h₁, by simpa using hr, h₂⟩
  · rintro ⟨j, hj, b, hb, h₁, hr, h₂⟩
    exact ⟨j, hj, by simpa using hr, b, hb, by simpa [Memory.readBytes] using h₁, h₂⟩

end Sys2Proof.Machine

namespace Sys2Proof

/-- A word is its group and its address field packed. -/
theorem packAddr_fields (w : Word) : packAddr (fieldG w) (fieldNNN w) = w := by
  apply BitVec.eq_of_toNat_eq
  rw [packAddr_toNat, fieldG_toNat, fieldNNN_toNat]
  omega

theorem packXNN_fields (w : Word) : packXNN (fieldG w) (fieldX w) (fieldNN w) = w := by
  apply BitVec.eq_of_toNat_eq
  rw [packXNN_toNat, fieldG_toNat, fieldX_val, fieldNN_toNat]
  omega

theorem packXYN_fields (w : Word) : packXYN (fieldG w) (fieldX w) (fieldY w) (fieldN w) = w := by
  apply BitVec.eq_of_toNat_eq
  rw [packXYN_toNat, fieldG_toNat, fieldX_val, fieldY_val, fieldN_toNat]
  omega

end Sys2Proof
end

