-- ==== Sys2Proof/Tests/Slice0.lean ====
section
/-! SUPPORT. Tests on fixed values: the expected results are those of spec/95_test_vectors.md and of the rules' worked
examples, and a witness for the hypotheses of each statement. One step each. -/

namespace Sys2Proof.Tests

open Sys2Proof.Machine

/-- The step on word w at pc, from the reset state changed by f. -/
def at_ (w : Nat) (f : State → State) : State := (f State.reset).withFetchWord 16 w

/-- The outcome is a next state with the property. -/
def nextHas (r : Result) (p : State → Bool) : Bool :=
  match r with
  | .next t => p t
  | .fault _ => false
  | .refused _ => false

/-- The outcome is this fault. -/
def faultIs (r : Result) (f : Fault) : Bool :=
  match r with
  | .next _ => false
  | .fault g => g == f
  | .refused _ => false

/-- What nextHas says. -/
theorem nextHas_iff (r : Result) (p : State → Bool) : nextHas r p = true ↔ ∃ t, r = .next t ∧ p t = true := by
  cases r <;> simp [nextHas]

def setR (r : Reg) (b : Byte) (s : State) : State := s.setReg r b
def setI (a : Word) (s : State) : State := { s with i := a }
def setPc (a : Word) (s : State) : State := { s with pc := a }
def setParams (p : Params) (s : State) : State := { s with params := p }
def poke (a : Nat) (bs : List Byte) (s : State) : State := { s with mem := s.mem.writeBytes a bs }
def setSp (k : Fin 17) (s : State) : State := { s with sp := k }

/-! ### Well-formedness, decode and encode -/

theorem test_sys_00E0_ill_formed : (Instr.sys 0x0E0).wellFormed = false := by decide
theorem test_sys_00EE_ill_formed : (Instr.sys 0x0EE).wellFormed = false := by decide
theorem test_sys_0E1_well_formed : (Instr.sys 0x0E1).wellFormed = true := by decide

-- Each word is written out from its row's bit pattern (30_encoding.md R81 to R91).
theorem test_decode_control :
    decodeWord 0b0000000011100000 = .ok .cls ∧ decodeWord 0b0000000011101110 = .ok .ret ∧
    decodeWord 0b0000000100100011 = .ok (.sys 0x123) ∧ decodeWord 0b0001101010111100 = .ok (.jp 0xABC) ∧
    decodeWord 0b0010010000000001 = .ok (.call 0x401) ∧ decodeWord 0b0011001101000010 = .ok (.seImm 3 0x42) ∧
    decodeWord 0b0100001101000001 = .ok (.sneImm 3 0x41) ∧ decodeWord 0b0101000100100000 = .ok (.seReg 1 2) ∧
    decodeWord 0b1001101010110000 = .ok (.sneReg 0xA 0xB) ∧ decodeWord 0b1011001100000001 = .ok (.jpV0 0x301) := by
  decide

theorem test_decode_alu :
    decodeWord 0b0110101000000101 = .ok (.ldVxNn 0xA 5) ∧ decodeWord 0b0111000000000011 = .ok (.addVxNn 0 3) ∧
    decodeWord 0b1000000100100000 = .ok (.ldVxVy 1 2) ∧ decodeWord 0b1000000100100001 = .ok (.orVxVy 1 2) ∧
    decodeWord 0b1000000100100010 = .ok (.andVxVy 1 2) ∧ decodeWord 0b1000000100100011 = .ok (.xorVxVy 1 2) ∧
    decodeWord 0b1000000100100100 = .ok (.addVxVy 1 2) ∧ decodeWord 0b1000000100100101 = .ok (.sub 1 2) ∧
    decodeWord 0b1000010001010110 = .ok (.shr 4 5) ∧ decodeWord 0b1000000100100111 = .ok (.subn 1 2) ∧
    decodeWord 0b1000101010111110 = .ok (.shl 0xA 0xB) := by
  decide

theorem test_decode_index_display_keypad :
    decodeWord 0b1010001011110000 = .ok (.ldI 0x2F0) ∧ decodeWord 0b1100001100001111 = .ok (.rnd 3 0x0F) ∧
    decodeWord 0b1101000000010101 = .ok (.drw 0 1 5) ∧ decodeWord 0b1110001110011110 = .ok (.skp 3) ∧
    decodeWord 0b1110000110100001 = .ok (.sknp 1) := by
  decide

theorem test_decode_group_F :
    decodeWord 0b1111001100000111 = .ok (.ldVxDt 3) ∧ decodeWord 0b1111010100001010 = .ok (.ldVxK 5) ∧
    decodeWord 0b1111001100010101 = .ok (.ldDtVx 3) ∧ decodeWord 0b1111001100011000 = .ok (.ldStVx 3) ∧
    decodeWord 0b1111010100011110 = .ok (.addI 5) ∧ decodeWord 0b1111001000101001 = .ok (.ldF 2) ∧
    decodeWord 0b1111011100110011 = .ok (.ldB 7) ∧ decodeWord 0b1111001001010101 = .ok (.ldMemVx 2) ∧
    decodeWord 0b1111000101100101 = .ok (.ldVxMem 1) := by
  decide

-- 95_test_vectors.md section 2.1: the words that are Unknown.
theorem test_decode_unknown :
    decodeWord 0x0000 = .ok (.sys 0) ∧ decodeWord 0x00E1 = .ok (.sys 0x0E1) ∧
    decodeWord 0x5121 = .error (.unknown 0x5121) ∧ decodeWord 0x9AB7 = .error (.unknown 0x9AB7) ∧
    decodeWord 0x8AB8 = .error (.unknown 0x8AB8) ∧ decodeWord 0xE19F = .error (.unknown 0xE19F) ∧
    decodeWord 0xF108 = .error (.unknown 0xF108) ∧ decodeWord 0xF166 = .error (.unknown 0xF166) := by
  decide

theorem test_decode_bytes : decodeBytes [0xD0, 0x15, 0xAA] = .ok (.drw 0 1 5, [0xAA]) ∧
    decodeBytes [0xD0] = .error .truncated := by decide
theorem test_decode_table_word : decodeTableWord 16 0xA2F0 = some (.ldI 0x2F0) ∧ decodeTableWord 16 0x5001 = none := by
  decide
theorem test_encode : encode (.drw 0 1 5) = 0xD015 ∧ encode (.shl 0xA 0xB) = 0x8ABE ∧ encode (.sknp 1) = 0xE1A1 := by
  decide

/-! ### Control transfer and skips (vectors of section 2.2) -/

theorem test_sys_reports : nextHas (step (at_ 0x0123 id)) (fun t => t.pc == 0x202 && t.report == some ⟨0x200, 0x0123⟩) := by
  decide
theorem test_unknown_fatal :
    faultIs (step (at_ 0x5FFF (setParams { defaultParams with unknownOpcodeFatal := true })))
      (.unknownOpcode 0x200 0x5FFF) := by decide
theorem test_unknown_5FFF : nextHas (step (at_ 0x5FFF id)) (fun t => t.pc == 0x202 && t.report == some ⟨0x200, 0x5FFF⟩) := by
  decide
theorem test_jp : nextHas (step (at_ 0x1ABC id)) (fun t => t.pc == 0xABC) := by decide
theorem test_call : nextHas (step (at_ 0x2400 id)) (fun t => t.pc == 0x400 && t.sp == 1 && t.stack[0] == 0x200) := by decide
theorem test_call_full : faultIs (step (at_ 0x2400 (setPc 0x300 ∘ setSp 16))) (.stackOverflow 0x300 0x2400) := by decide
theorem test_ret :
    nextHas (step (at_ 0x00EE fun s => { s with pc := 0x400, sp := 2, stack := s.stack.set 1 0x256 }))
      (fun t => t.pc == 0x258 && t.sp == 1 && t.stack[1] == 0x256) := by decide
theorem test_ret_empty : faultIs (step (at_ 0x00EE (setPc 0x400))) (.stackUnderflow 0x400 0x00EE) := by decide
theorem test_se_imm : nextHas (step (at_ 0x3342 (setR 3 0x42))) (fun t => t.pc == 0x204) := by decide
theorem test_se_imm_not : nextHas (step (at_ 0x3342 (setR 3 0x41))) (fun t => t.pc == 0x202) := by decide
theorem test_sne_imm : nextHas (step (at_ 0x4342 (setR 3 0x41))) (fun t => t.pc == 0x204) := by decide
theorem test_se_reg : nextHas (step (at_ 0x5120 (setR 1 7 ∘ setR 2 7))) (fun t => t.pc == 0x204) := by decide
theorem test_sne_reg : nextHas (step (at_ 0x9120 (setR 1 7 ∘ setR 2 8))) (fun t => t.pc == 0x204) := by decide
theorem test_sne_reg_same : nextHas (step (at_ 0x9110 (setR 1 7))) (fun t => t.pc == 0x202) := by decide
theorem test_jp_v0 : nextHas (step (at_ 0xB300 (setR 0 0x10))) (fun t => t.pc == 0x310) := by decide
theorem test_jp_v0_beyond : nextHas (step (at_ 0xBFFF (setR 0 0xFF))) (fun t => t.pc == 0x10FE) := by decide

/-! ### Register arithmetic and logic (section 2.3) -/

theorem test_ld_vx_vy : nextHas (step (at_ 0x8120 (setR 2 0x34))) (fun t => t.reg 1 == 0x34) := by decide
theorem test_or_vf_destination : nextHas (step (at_ 0x8F11 (setR 15 0x55 ∘ setR 1 0x0F))) (fun t => t.reg 15 == 0x5F) := by
  decide
theorem test_and : nextHas (step (at_ 0x8122 (setR 1 0x3C ∘ setR 2 0x0F))) (fun t => t.reg 1 == 0x0C) := by decide
theorem test_xor : nextHas (step (at_ 0x8123 (setR 1 0x3C ∘ setR 2 0x0F))) (fun t => t.reg 1 == 0x33) := by decide
theorem test_add_carry :
    nextHas (step (at_ 0x8124 (setR 1 0xFF ∘ setR 2 0x01))) (fun t => t.reg 1 == 0x00 && t.reg 15 == 1) := by decide
theorem test_add_vf_orders :
    nextHas (step (at_ 0x8F24 (setR 15 0x01 ∘ setR 2 0xFF))) (fun t => t.reg 15 == 1) ∧
    nextHas (step (at_ 0x8F24 (setParams { defaultParams with vfWriteOrder := .resultLast } ∘ setR 15 0x01 ∘ setR 2 0xFF)))
      (fun t => t.reg 15 == 0) := by decide
theorem test_sub_borrow :
    nextHas (step (at_ 0x8125 (setR 1 0x02 ∘ setR 2 0x05))) (fun t => t.reg 1 == 0xFD && t.reg 15 == 0) := by decide
theorem test_sub_equal :
    nextHas (step (at_ 0x8125 (setR 1 0x07 ∘ setR 2 0x07))) (fun t => t.reg 1 == 0x00 && t.reg 15 == 1) := by decide
theorem test_shr :
    nextHas (step (at_ 0x8456 (setR 4 0x05 ∘ setR 5 0xFF))) (fun t => t.reg 4 == 0x02 && t.reg 15 == 1) := by decide
theorem test_shr_source_vy :
    nextHas (step (at_ 0x8456 (setParams { defaultParams with shiftSource := .vy } ∘ setR 4 0x05 ∘ setR 5 0xFE)))
      (fun t => t.reg 4 == 0x7F && t.reg 15 == 0) := by decide
theorem test_subn :
    nextHas (step (at_ 0x8127 (setR 1 0x05 ∘ setR 2 0x03))) (fun t => t.reg 1 == 0xFE && t.reg 15 == 0) := by decide
theorem test_shl : nextHas (step (at_ 0x840E (setR 4 0x81))) (fun t => t.reg 4 == 0x02 && t.reg 15 == 1) := by decide
theorem test_ld_vx_nn : nextHas (step (at_ 0x6AFF id)) (fun t => t.reg 10 == 0xFF && t.pc == 0x202) := by decide
theorem test_add_nn_no_flag :
    nextHas (step (at_ 0x7001 (setR 0 0xFF ∘ setR 15 0x09))) (fun t => t.reg 0 == 0x00 && t.reg 15 == 0x09) := by decide

/-! ### Index and random (section 2.4) -/

theorem test_ld_i : nextHas (step (at_ 0xA2F0 id)) (fun t => t.i == 0x2F0) := by decide
theorem test_add_i_limit :
    nextHas (step (at_ 0xF51E (setI 0x0FFE ∘ setR 5 0x01))) (fun t => t.i == 0x0FFF && t.reg 15 == 0) ∧
    nextHas (step (at_ 0xF51E (setI 0x0FFF ∘ setR 5 0x01))) (fun t => t.i == 0x1000 && t.reg 15 == 1) := by decide
theorem test_add_i_vf : nextHas (step (at_ 0xFF1E (setI 0x0FF0 ∘ setR 15 0x20))) (fun t => t.i == 0x1010 && t.reg 15 == 1) := by
  decide
theorem test_ld_f : nextHas (step (at_ 0xF229 (setR 2 0x1A))) (fun t => t.i == 0x032) := by decide
-- Any draw: the bits outside NN are 0 whatever the free value is.
theorem test_rnd_zero_mask : ∃ t, step (at_ 0xC300 (setR 3 9)) = .next t ∧ t.reg 3 = 0 ∧ t.draws = 1 :=
  ⟨_, rfl, BitVec.and_zero, rfl⟩

/-! ### Display (section 2.5) -/

def drawnOnce : State := at_ 0xD015 (fun s => { s with fb := (s.drawSprite 0 1 5).1 })

theorem test_cls :
    nextHas (step (at_ 0x00E0 (fun s => { s with fb := s.fb.flip (3, 4) }))) (fun t => !t.fb.get (3, 4) && t.redraw) := by
  decide
theorem test_drw_glyph_0 :
    nextHas (step (at_ 0xD015 id)) (fun t => (t.fb[0].toList.take 8 == [true, true, true, true, false, false, false, false]) &&
      (t.fb[1].toList.take 8 == [true, false, false, true, false, false, false, false]) && t.reg 15 == 0 && t.redraw) := by
  decide
theorem test_drw_twice : nextHas (step drawnOnce) (fun t => !t.fb.get (0, 0) && !t.fb.get (4, 3) && t.reg 15 == 1) := by decide
theorem test_drw_wraps :
    nextHas (step (at_ 0xD011 (poke 0x300 [0xFF] ∘ setI 0x300 ∘ setR 0 0x3E ∘ setR 1 0x1F)))
      (fun t => t.fb.get (31, 62) && t.fb.get (31, 63) && t.fb.get (31, 0) && t.fb.get (31, 5) && !t.fb.get (31, 6)) := by
  decide
theorem test_drw_empty : nextHas (step (at_ 0xD010 (setI 0x5000))) (fun t => t.redraw && t.reg 15 == 0 && t.pc == 0x202) := by
  decide
theorem test_drw_vf_origin :
    nextHas (step (at_ 0xDF11 (poke 0x300 [0x80] ∘ setI 0x300 ∘ setR 15 0x03))) (fun t => t.fb.get (0, 3) && t.reg 15 == 0) := by
  decide
theorem test_drw_outside : faultIs (step (at_ 0xD013 (setI 0xFFE))) (.addressing 0x1000 0x200 (some 0xD013)) := by decide

/-! ### Keypad (section 2.6) -/

theorem test_skp : nextHas (step (at_ 0xE39E (fun s => (s.setReg 3 0x0A).setKey 0xA true))) (fun t => t.pc == 0x204) := by decide
theorem test_sknp : nextHas (step (at_ 0xE3A1 (setR 3 0x0A))) (fun t => t.pc == 0x204) := by decide
theorem test_skp_above_fifteen :
    faultIs (step (at_ 0xE39E (setR 3 0x10))) (.keyIndex 0x200 0xE39E 0x10) ∧
    nextHas (step (at_ 0xE39E (fun s =>
      ((setParams { defaultParams with keyIndexPolicy := .lowNibble } s).setReg 3 0x10).setKey 0 true)))
      (fun t => t.pc == 0x204) := by decide
theorem test_ld_vx_k :
    nextHas (step (at_ 0xF50A (fun s => (s.setKey 9 true).setKey 3 true))) (fun t => t.reg 5 == 0x03 && t.pc == 0x202) := by
  decide
theorem test_ld_vx_k_waits : nextHas (step (at_ 0xF50A id)) (fun t => t.pc == 0x200) := by decide

/-! ### Timers, BCD and blocks (section 2.7) -/

theorem test_ld_vx_dt : nextHas (step (at_ 0xF307 (fun s => { s with dt := 0x3C }))) (fun t => t.reg 3 == 0x3C) := by decide
theorem test_ld_dt : nextHas (step (at_ 0xF315 (setR 3 0x3C))) (fun t => t.dt == 0x3C) := by decide
theorem test_ld_st : nextHas (step (at_ 0xF318 (setR 3 0x01))) (fun t => t.st == 1 && t.soundEdge) := by decide
theorem test_ld_b :
    nextHas (step (at_ 0xF733 (setI 0x300 ∘ setR 7 0xFE))) (fun t => t.mem.readBytes 0x300 3 == [2, 5, 4]) := by decide
theorem test_ld_b_edge :
    nextHas (step (at_ 0xF733 (setI 0xFFD ∘ setR 7 0x09))) (fun t => t.mem.readBytes 0xFFD 3 == [0, 0, 9]) ∧
    faultIs (step (at_ 0xF733 (setI 0xFFE))) (.addressing 0x1000 0x200 (some 0xF733)) := by decide
theorem test_ld_mem_vx :
    nextHas (step (at_ 0xF255 (setI 0x400 ∘ setR 0 1 ∘ setR 1 2 ∘ setR 2 3)))
      (fun t => t.mem.readBytes 0x400 4 == [1, 2, 3, 0] && t.i == 0x400) := by decide
theorem test_ld_mem_vx_edge :
    nextHas (step (at_ 0xFF55 (setI 0xFF0 ∘ setR 15 7))) (fun t => t.mem.read 0xFFF == 7) ∧
    faultIs (step (at_ 0xFF55 (setI 0xFF1))) (.addressing 0x1000 0x200 (some 0xFF55)) := by decide
theorem test_ld_vx_mem_font :
    nextHas (step (at_ 0xF465 id)) (fun t => t.v.toList.take 6 == [0xF0, 0x90, 0x90, 0x90, 0xF0, 0]) := by decide
theorem test_block_increment :
    nextHas (step (at_ 0xF265 (setParams { defaultParams with blockIIncrement := .xPlusOne } ∘ setI 0x400)))
      (fun t => t.i == 0x403) := by decide
theorem test_ld_vx_mem_outside : faultIs (step (at_ 0xF065 (setI 0x1000))) (.addressing 0x1000 0x200 (some 0xF065)) := by decide

/-! ### Operations (section 2.8) -/

theorem test_tick : ({ State.reset with dt := 5, st := 2 }.tick).dt = 4 ∧ ({ State.reset with dt := 5, st := 2 }.tick).st = 1 ∧
    { State.reset with dt := 5, st := 2 }.soundEdge = false := by decide
theorem test_tick_floor : (State.reset.tick).dt = 0 ∧ State.reset.soundEdge = false := by decide
theorem test_tick_edge : { State.reset with st := 1 }.soundEdge = true := by decide
theorem test_font_glyph_F : State.reset.mem.readBytes 0x04B 6 = [0xF0, 0x80, 0xF0, 0x80, 0x80, 0] := by decide
theorem test_reset_default_font : State.reset.resetAll = State.reset := by decide
theorem test_reset_other_font (p : Params) (h : p.font = Vector.replicate 80 0xAA) :
    (resetMemory p).read 0x04F = 0xAA ∧ (resetMemory p).read 0x050 = 0 := by
  rw [resetMemory, Memory.read_writeBytes, Memory.read_writeBytes, h]
  decide
theorem test_fetch_last_word : nextHas (step (at_ 0x1200 (setPc 0xFFE))) (fun t => t.pc == 0x200) := by decide
theorem test_fetch_outside : faultIs (step (setPc 0xFFF State.reset)) (.addressing 0x1000 0xFFF none) ∧
    faultIs (step (setPc 0x10FE State.reset)) (.addressing 0x10FE 0x10FE none) := by decide
theorem test_redraw_cleared : nextHas (step (at_ 0x6000 (fun s => { s with redraw := true }))) (fun t => !t.redraw) := by decide
theorem test_load_image : (State.reset.loadImage [0x60, 0x05]).map (fun t => t.mem.readBytes 0x200 3) = some [0x60, 0x05, 0] := by
  decide
theorem test_load_too_long (s : State) : s.loadImage (List.replicate 3585 0) = none := by
  unfold State.loadImage
  rw [if_pos (by rw [List.length_replicate]; decide)]

/-! ### Witnesses: concrete states and operands that meet the hypotheses of each statement together -/

/-- An invariant state: memory listed or not, pc bounded, empty stack. -/
theorem inv_of_empty_stack (s : State) (hm : s.mem.wf) (hp : s.pc.toNat ≤ 0x10FE) (hs : s.sp.val = 0) : s.Inv :=
  ⟨hm, hp, fun k hk => absurd hk (by omega)⟩

def fatalParams : Params := { defaultParams with unknownOpcodeFatal := true }
def lowNibbleParams : Params := { defaultParams with keyIndexPolicy := .lowNibble }
def incrementParams : Params := { defaultParams with blockIIncrement := .xPlusOne }
def keyed : State := at_ 0xF50A (fun s => (s.setKey 9 true).setKey 3 true)

theorem witness_StepRunsTheDecodedInstruction : (at_ 0xD015 id).Fetches (.drw 0 1 5) := ⟨by decide, by decide⟩
theorem witness_FetchIsBigEndian : (setPc 0xFFE State.reset).Fetchable ∧ 0xFFE + 1 < 4096 ∧ 0 + 1 < 4096 := by decide
theorem witness_RedrawIsSetExactlyByClsAndDrw :
    (∃ t, step (at_ 0x00E0 id) = .next t ∧ t.redraw = true) ∧ (∃ t, step (at_ 0xD010 id) = .next t ∧ t.redraw = true) ∧
    ∃ t, step (at_ 0x6000 id) = .next t ∧ t.redraw = false := ⟨⟨_, rfl, rfl⟩, ⟨_, rfl, rfl⟩, ⟨_, rfl, rfl⟩⟩
theorem witness_UnknownWordReportsAndContinues :
    (at_ 0x5FFF id).Fetchable ∧ (at_ 0x5FFF id).wordAtPc = 0x5FFF ∧ UnknownWord 0x5FFF ∧
    (at_ 0x5FFF id).params.unknownOpcodeFatal = false ∧ (at_ 0x5FFF (setParams fatalParams)).params.unknownOpcodeFatal = true ∧
    (at_ 0x5FFF (setParams fatalParams)).wordAtPc = 0x5FFF := by decide
theorem witness_UnknownWordReports_otherWord : ¬ UnknownWord (at_ 0x6000 id).wordAtPc ∧ ∃ t, step (at_ 0x6000 id) = .next t :=
  ⟨by decide, _, rfl⟩
theorem witness_UnknownWord_group_0 : UnknownWord 0x0000 ∧ ¬ UnknownWord 0x00E0 ∧ ¬ UnknownWord 0x00EE := by decide
theorem witness_UnknownWord_group_0_end : UnknownWord 0x0FFF ∧ ¬ UnknownWord 0x1000 := by decide
theorem witness_UnknownWord_groups_5_9 : UnknownWord 0x5001 ∧ ¬ UnknownWord 0x5FF0 ∧ UnknownWord 0x9FFF := by decide
theorem witness_UnknownWord_group_8 : UnknownWord 0x800F ∧ ¬ UnknownWord 0x800E := by decide
theorem witness_UnknownWord_group_E : UnknownWord 0xE09F ∧ ¬ UnknownWord 0xE0A1 := by decide
theorem witness_UnknownWord_group_F : UnknownWord 0xFFFF ∧ ¬ UnknownWord 0xFF65 := by decide
theorem witness_SysTakesTheUnknownOpcodePath :
    State.reset.params.unknownOpcodeFatal = false ∧ (setParams fatalParams State.reset).params.unknownOpcodeFatal = true := by
  decide
theorem witness_JpSetsOnlyPc : (0xFFF : Addr12).toNat = 0xFFF ∧ (0x200 : Addr12).toNat = State.reset.pc.toNat := by decide
theorem witness_CallPushesPcAndJumps : (setSp 15 State.reset).sp.val < 16 ∧ (setSp 16 State.reset).sp.val = 16 ∧
    (15 : Fin 16).val = (setSp 15 State.reset).sp.val := by decide
theorem witness_RetPopsAndResumesAfterTheCall : 0 < (setSp 1 State.reset).sp.val ∧ 0 < (setSp 16 State.reset).sp.val ∧
    (15 : Fin 16).val + 1 = (setSp 16 State.reset).sp.val ∧ State.reset.sp.val = 0 := by decide
-- The states in which the steps of CALL, RET and LD B fault.
theorem witness_faulting_steps : (at_ 0x2400 (setSp 16)).Fetches (.call 0x400) ∧ (at_ 0x00EE id).Fetches .ret ∧
    (at_ 0xF733 (setI 0xFFE)).Fetches (.ldB 7) :=
  ⟨⟨by decide, by decide⟩, ⟨by decide, by decide⟩, ⟨by decide, by decide⟩⟩
theorem witness_ReturnAfterCallRestoresTheStack : ∃ t, exec (.call 0x400) State.reset = .next t := ⟨_, rfl⟩
theorem witness_ReturnAfterCall_invariant :
    (setSp 1 State.reset).Inv ∧ (0 : Fin 16).val + 1 = (setSp 1 State.reset).sp.val :=
  ⟨⟨by decide, by decide, fun k _ => by
    have : (setSp 1 State.reset).stack[k] = 0 := by simp [setSp, State.reset]
    rw [this]; decide⟩, by decide⟩
theorem witness_HasResultAndFlag : (1 : Reg) ≠ vf ∧ (15 : Reg) = vf := by decide
theorem witness_IndexAddWrapsAndSetsOverflow :
    State.reset.params.addiOverflowLimit = some 0x0FFF ∧
    (setParams { defaultParams with addiOverflowLimit := none } State.reset).params.addiOverflowLimit = none := by decide
theorem witness_DrwXorsTheSpriteAndSetsCollision :
    ((0 : Nibble) = 0) ∧ (setI 0xFF1 State.reset).i.toNat + (15 : Nibble).toNat ≤ 4096 ∧
    State.reset.Covers 0 1 5 (0, 0) ∧ ¬ State.reset.Covers 0 1 0 (0, 0) := by
  refine ⟨rfl, by decide, ⟨0, by decide, 0, by decide, by decide, by decide, by decide⟩, ?_⟩
  rintro ⟨k, hk, -⟩
  exact absurd hk (Nat.not_lt_zero _)
theorem witness_DrwCollision : drawnOnce.Covers 0 1 5 (0, 0) ∧ drawnOnce.fb.get (0, 0) = true :=
  ⟨⟨0, by decide, 0, by decide, by decide, by decide, by decide⟩, by decide⟩
theorem witness_DrawingTwiceRestoresTheFramebuffer : ∃ t, exec (.drw 0 1 5) State.reset = .next t ∧
    t.reg 0 = State.reset.reg 0 ∧ t.reg 1 = State.reset.reg 1 := ⟨_, rfl, by decide, by decide⟩
theorem witness_AccessOutsideMemoryFaults :
    LowestOutside (setPc 0xFFF State.reset).pc.toNat 2 0x1000 ∧ LowestOutside (setPc 0x10FE State.reset).pc.toNat 2 0x10FE ∧
    LowestOutside (setI 0xFFE State.reset).i.toNat (3 : Nibble).toNat 0x1000 ∧
    LowestOutside (setI 0xFFE State.reset).i.toNat 3 0x1000 ∧ LowestOutside (setI 0xFF1 State.reset).i.toNat (15 + 1) 0x1000 ∧
    LowestOutside (setI 0x1000 State.reset).i.toNat (0 + 1) 0x1000 := by
  refine ⟨?_, ?_, ?_, ?_, ?_, ?_⟩ <;> refine ⟨by decide, by decide, by decide, fun b h₁ h₂ => ?_⟩ <;>
    simp [setPc, setI] at h₁ h₂ <;> omega
theorem witness_KeySkipsTestTheNamedKey : (setR 3 0x0F State.reset).TestsKey 3 15 ∧
    (setParams lowNibbleParams (setR 3 0x10 State.reset)).TestsKey 3 0 := by decide
theorem witness_KeyIndexAboveFifteenFaults :
    (setR 3 0x10 State.reset).params.keyIndexPolicy = .fault ∧ 0x0F < ((setR 3 0x10 State.reset).reg 3).toNat := by decide
theorem witness_KeyReadTakesTheLowestKeyOrWaits :
    (keyed.key[3] = true ∧ ∀ j : Fin 16, j < 3 → keyed.key[j] = false) ∧ ∀ k : Fin 16, State.reset.key[k] = false := by decide
theorem witness_SoundTimerMoveCopiesWithoutEdge : (setR 3 1 State.reset).reg 3 = 1 := by decide
theorem witness_BcdStoreWritesThreeDigits : (setI 0xFFD State.reset).i.toNat + 2 < 4096 := by decide
theorem witness_BlockTransfers : (setI 0xFF0 State.reset).i.toNat + (15 : Reg).val < 4096 ∧
    (setI 0xFFF State.reset).i.toNat + (0 : Reg).val < 4096 := by decide
-- Program P6 of 95_test_vectors.md: pc = 0x206, I = 0x208, both bytes of the next word are stored.
theorem witness_NextFetchSeesTheStoredWord : ∃ t, exec (.ldMemVx 1) (setPc 0x206 (setI 0x208 (setR 1 7 State.reset))) = .next t ∧
    t.Fetchable ∧ State.StoresByte (setI 0x208 (setR 1 7 State.reset)) (.ldMemVx 1) t.pc.toNat 0 ∧
    State.StoresByte (setI 0x208 (setR 1 7 State.reset)) (.ldMemVx 1) (t.pc.toNat + 1) 7 :=
  ⟨_, rfl, by decide, .inr ⟨1, 0, rfl, by decide, by decide, by decide⟩, .inr ⟨1, 1, rfl, by decide, by decide, by decide⟩⟩
-- One byte of the next word is stored: the hundreds digit, at 0x209; the byte at 0x208 is not.
theorem witness_NextFetch_oneByte : ∃ t, exec (.ldB 7) (setPc 0x206 (setI 0x209 (setR 7 0xFE State.reset))) = .next t ∧
    t.Fetchable ∧ State.StoresByte (setI 0x209 (setR 7 0xFE State.reset)) (.ldB 7) (t.pc.toNat + 1) 2 ∧
    ¬ ∃ b, State.StoresByte (setI 0x209 (setR 7 0xFE State.reset)) (.ldB 7) t.pc.toNat b := by
  refine ⟨_, rfl, by decide, .inl ⟨7, rfl, .inl ⟨by decide, by decide⟩⟩, ?_⟩
  rintro ⟨b, ⟨x, -, h⟩ | ⟨x, k, h, -⟩⟩
  · rcases h with ⟨h, -⟩ | ⟨h, -⟩ | ⟨h, -⟩ <;> revert h <;> decide
  · cases h
-- The ones digit, at 0x208, is the high byte of the next word; the byte at 0x209 is not stored.
theorem witness_NextFetch_lastDigit : ∃ t, exec (.ldB 7) (setPc 0x206 (setI 0x206 (setR 7 0xFE State.reset))) = .next t ∧
    State.StoresByte (setI 0x206 (setR 7 0xFE State.reset)) (.ldB 7) t.pc.toNat 4 ∧
    ¬ ∃ b, State.StoresByte (setI 0x206 (setR 7 0xFE State.reset)) (.ldB 7) (t.pc.toNat + 1) b := by
  refine ⟨_, rfl, .inl ⟨7, rfl, .inr (.inr ⟨by decide, by decide⟩)⟩, ?_⟩
  rintro ⟨b, ⟨x, -, h⟩ | ⟨x, k, h, -⟩⟩
  · rcases h with ⟨h, -⟩ | ⟨h, -⟩ | ⟨h, -⟩ <;> revert h <;> decide
  · cases h
theorem witness_FaultsArePreciseAndRepeat : ∃ f t, transact .step (at_ 0x00EE id) = (.stepFaulted f, t) := ⟨_, _, rfl⟩
-- One state for each class of fault.
theorem witness_EachFaultHasItsCause :
    (∃ a p w, step (setPc 0xFFF State.reset) = .fault (.addressing a p w)) ∧
    (∃ a p w, step (at_ 0xF065 (setI 0x1000)) = .fault (.addressing a p w)) ∧
    (∃ p w, step (at_ 0x2400 (setSp 16)) = .fault (.stackOverflow p w)) ∧
    (∃ p w, step (at_ 0x00EE id) = .fault (.stackUnderflow p w)) ∧
    (∃ p w, step (at_ 0x5FFF (setParams fatalParams)) = .fault (.unknownOpcode p w)) ∧
    (∃ p w v, step (at_ 0xE39E (setR 3 0x10)) = .fault (.keyIndex p w v)) :=
  ⟨⟨_, _, _, rfl⟩, ⟨_, _, _, rfl⟩, ⟨_, _, rfl⟩, ⟨_, _, rfl⟩, ⟨_, _, rfl⟩, ⟨_, _, _, rfl⟩⟩
theorem witness_LoaderCopiesOrRefusesWhole :
    (List.replicate 3584 (0 : Byte)).length ≤ 3584 ∧ 3584 < (List.replicate 3585 (0 : Byte)).length := by
  simp only [List.length_replicate]; decide
theorem witness_EveryStepKeepsTheInvariant : (at_ 0x6A05 id).Inv ∧ ∃ t, step (at_ 0x6A05 id) = .next t :=
  ⟨inv_of_empty_stack _ (by decide) (by decide) rfl, ⟨_, rfl⟩⟩
theorem witness_EveryScheduleKeepsTheInvariant : State.reset.Inv :=
  inv_of_empty_stack _ (by decide) (by decide) rfl
theorem witness_StepMovesPcAsListed :
    (∃ t, step (at_ 0x3000 id) = .next t) ∧ (at_ 0x3000 id).Fetches (.seImm 0 0) ∧
    (∃ t, step (at_ 0x5FFF id) = .next t) ∧ UnknownWord (at_ 0x5FFF id).wordAtPc ∧
    ∃ f, (transact .step (at_ 0x00EE id)).1 = .stepFaulted f :=
  ⟨⟨_, rfl⟩, ⟨by decide, by decide⟩, ⟨_, rfl⟩, by decide, ⟨_, rfl⟩⟩
theorem witness_StepMovesPc_keyRead : (∀ k : Fin 16, (at_ 0xF50A id).key[k] = false) ∧ (∃ t, step (at_ 0xF50A id) = .next t) ∧
    (∃ k : Fin 16, keyed.key[k] = true) ∧ ∃ t, step keyed = .next t := ⟨by decide, ⟨_, rfl⟩, ⟨3, by decide⟩, ⟨_, rfl⟩⟩
theorem witness_StepMovesPc_ret : (at_ 0x00EE (setSp 1)).Inv ∧ (at_ 0x00EE (setSp 1)).Fetches .ret ∧
    ∃ t, step (at_ 0x00EE (setSp 1)) = .next t :=
  ⟨⟨by decide, by decide, fun k _ => by
    have : (at_ 0x00EE (setSp 1)).stack[k] = 0 := by
      show (Vector.replicate 16 (0 : Word))[k] = 0
      simp
    rw [this]; decide⟩, ⟨by decide, by decide⟩, _, rfl⟩
-- The largest sum of JP V0, 0x10FE.
theorem witness_StepMovesPc_jpV0 : (at_ 0xBFFF (setR 0 0xFF)).Fetches (.jpV0 0xFFF) ∧
    ∃ t, step (at_ 0xBFFF (setR 0 0xFF)) = .next t := ⟨⟨by decide, by decide⟩, _, rfl⟩
theorem witness_StepMovesPc_skp : (at_ 0xE39E (setR 3 0x0F)).Fetches (.skp 3) ∧ (at_ 0xE39E (setR 3 0x0F)).TestsKey 3 15 ∧
    (∃ t, step (at_ 0xE39E (setR 3 0x0F)) = .next t) ∧ (at_ 0xE3A1 (setR 3 0x0F)).Fetches (.sknp 3) ∧
    ∃ t, step (at_ 0xE3A1 (setR 3 0x0F)) = .next t :=
  ⟨⟨by decide, by decide⟩, by decide, ⟨_, rfl⟩, ⟨by decide, by decide⟩, _, rfl⟩
theorem witness_DecodeOfEncodeGivesTheInstruction : (Instr.sys 0x0EF).wellFormed = true ∧ Instr.cls.wellFormed = true := by decide
theorem witness_DecodedWordsEncodeBack : decodeWord 0xD015 = .ok (.drw 0 1 5) := by decide
theorem witness_OnlyStoresChangeMemory :
    (∃ t, step (at_ 0xF733 (setI 0x300 ∘ setR 7 0xFE)) = .next t ∧
      t.mem.read 0x302 ≠ (at_ 0xF733 (setI 0x300 ∘ setR 7 0xFE)).mem.read 0x302) ∧
    ∃ t, step (at_ 0xFF55 (setI 0xFF0 ∘ setR 15 7)) = .next t ∧
      t.mem.read 0xFFF ≠ (at_ 0xFF55 (setI 0xFF0 ∘ setR 15 7)).mem.read 0xFFF := ⟨⟨_, rfl, by decide⟩, ⟨_, rfl, by decide⟩⟩
theorem witness_OnlyClsAndDrwChangeTheFramebuffer :
    ∃ t, step (at_ 0xD015 id) = .next t ∧ t.fb.get (0, 0) ≠ (at_ 0xD015 id).fb.get (0, 0) := ⟨_, rfl, by decide⟩
theorem witness_OnlyKeyEventsChangeTheKeypad :
    (transact (.setKey 15 true) State.reset).2.key[15] ≠ State.reset.key[15] ∧
    (transact .reset keyed).2.key[3] ≠ keyed.key[3] := by decide
theorem witness_OnlyKeyInstructionsReadTheKeypad :
    (∀ x, Instr.cls ≠ .skp x) ∧ (∀ x, Instr.cls ≠ .sknp x) ∧ ∀ x, Instr.cls ≠ .ldVxK x := by decide
theorem witness_OnlyCallAndRetTouchTheStack :
    (∃ t, step (at_ 0x2400 id) = .next t ∧ t.stack[0] ≠ (at_ 0x2400 id).stack[0] ∧ t.sp ≠ (at_ 0x2400 id).sp) ∧
    ∃ t, step (at_ 0x00EE (setSp 2)) = .next t ∧ t.sp ≠ (at_ 0x00EE (setSp 2)).sp :=
  ⟨⟨_, rfl, by decide, by decide⟩, ⟨_, rfl, by decide⟩⟩
theorem witness_OnlyListedInstructionsWriteVf :
    ∃ t, step (at_ 0x8124 (setR 1 0xFF ∘ setR 2 1)) = .next t ∧ t.reg vf ≠ (at_ 0x8124 (setR 1 0xFF ∘ setR 2 1)).reg vf :=
  ⟨_, rfl, by decide⟩
theorem witness_OnlyTimerMovesChangeTheTimers :
    (∃ t, step (at_ 0xF315 (setR 3 9)) = .next t ∧ t.dt ≠ (at_ 0xF315 (setR 3 9)).dt) ∧
    ∃ t, step (at_ 0xF318 (setR 3 9)) = .next t ∧ t.st ≠ (at_ 0xF318 (setR 3 9)).st := ⟨⟨_, rfl, by decide⟩, ⟨_, rfl, by decide⟩⟩
theorem witness_OnlyIndexInstructionsChangeI :
    (∃ t, step (at_ 0xA2F0 id) = .next t ∧ t.i ≠ (at_ 0xA2F0 id).i) ∧
    ∃ t, step (at_ 0xF265 (setParams incrementParams)) = .next t ∧ t.i ≠ (at_ 0xF265 (setParams incrementParams)).i :=
  ⟨⟨_, rfl, by decide⟩, ⟨_, rfl, by decide⟩⟩
theorem witness_TerminalStatesStayAsTheyAre : (at_ 0x1200 id).Terminal := by decide

theorem test_step_codes : (transact .step (at_ 0x5FFF id)).1 = .stepCompleted [⟨0x200, 0x5FFF⟩] ∧
    (transact .step (at_ 0x5FFF id)).1.stepCode = some 0 ∧ (transact .step (at_ 0x00EE id)).1.stepCode = some 3 := by decide
theorem witness_StepAnswersItsResultAndCode : (∃ t, step (at_ 0x5FFF id) = .next t ∧ t.report = some ⟨0x200, 0x5FFF⟩) ∧
    ∃ f, step (at_ 0x00EE id) = .fault f := ⟨⟨_, rfl, rfl⟩, _, rfl⟩

/-! ### A driver that keeps calling tick, and one that never does, over a self-jump with dt = 2 -/

def delayed : State := { at_ 0x1200 id with dt := 2 }
def stepTick : Schedule := fun n => if n % 2 = 0 then .step else .tick

theorem fetches_delayed (u : State) (hp : u.pc = delayed.pc) (hm : u.mem = delayed.mem) : u.Fetches (.jp 0x200) := by
  unfold State.Fetches State.Fetchable State.wordAtPc
  rw [hp, hm]
  decide

theorem stateAt_delayed (sched : Schedule) (h : ∀ n, sched n = .step ∨ sched n = .tick) (n : Nat) :
    (stateAt sched delayed n).pc = delayed.pc ∧ (stateAt sched delayed n).mem = delayed.mem := by
  induction n with
  | zero => exact ⟨rfl, rfl⟩
  | succ n ih =>
    show (transact (sched n) _).2.pc = _ ∧ (transact (sched n) _).2.mem = _
    generalize stateAt sched delayed n = u at ih
    rcases h n with h | h <;> rw [h]
    · have hf := fetches_delayed u ih.1 ih.2
      have hs : step u = exec (.jp 0x200) u.beginStep := by
        unfold step
        rw [show u.beginStep.fetch = u.fetch from rfl, State.fetch_of_fetchable hf.1]
        simp only [hf.2]
      rw [transact_step_next hs]
      exact ⟨rfl, ih.2⟩
    · exact ih

theorem noDelayWrite_delayed (sched : Schedule) (h : ∀ n, sched n = .step ∨ sched n = .tick) : NoDelayWrite sched delayed := by
  intro n _ x hx
  obtain ⟨hp, hm⟩ := stateAt_delayed sched h n
  cases hx.unique (fetches_delayed _ hp hm)

theorem witness_DelayWaitEndsExactlyWithTicks : FairTicks stepTick ∧ NoDelayWrite stepTick delayed :=
  ⟨fun n => ⟨2 * n + 1, by omega, by unfold stepTick; rw [if_neg (by omega)]⟩,
    noDelayWrite_delayed _ fun n => by unfold stepTick; split <;> simp⟩
theorem witness_DelayWait_withoutTicks : (∀ n : Nat, (fun _ => Port.step : Schedule) n ≠ .tick) ∧
    NoDelayWrite (fun _ => .step) delayed ∧ delayed.dt ≠ 0 :=
  ⟨by simp, noDelayWrite_delayed _ fun _ => .inl rfl, by decide⟩

end Sys2Proof.Tests
end

namespace Sys2Proof.Machine

/-! ### The frame of each state operation -/

theorem SamePart.refl (s : State) (p : Part) : SamePart s s p := by cases p <;> rfl

theorem SamePart.trans {s t u : State} {p : Part} (h : SamePart s t p) (h' : SamePart t u p) : SamePart s u p := by
  cases p <;> exact Eq.trans h' h

theorem OnlyChanges.refl (W : Part → Prop) (s : State) : OnlyChanges W s s := fun p _ => SamePart.refl s p

section
variable {W : Part → Prop} {s t : State}

theorem OnlyChanges.setReg (h : OnlyChanges W s t) {r : Reg} {b : Byte} (hr : W (.reg r)) :
    OnlyChanges W s (t.setReg r b) := by
  intro p hp
  have same := h p hp
  cases p with
  | reg q =>
    have hq : r ≠ q := fun e => hp (e ▸ hr)
    simpa [SamePart, hq] using same
  | _ => exact same

theorem OnlyChanges.setRegBlock (h : OnlyChanges W s t) {bytes : List Byte}
    (hr : ∀ r : Reg, r.val < bytes.length → W (.reg r)) : OnlyChanges W s (t.setRegBlock bytes) := by
  intro p hp
  have same := h p hp
  cases p with
  | reg q =>
    have hq : bytes.length ≤ q.val := not_lt.1 fun hlt => hp (hr q hlt)
    show (t.setRegBlock bytes).reg q = s.reg q
    rw [State.reg_setRegBlock, List.getD_eq_default _ _ hq]
    exact same
  | _ => exact same

theorem OnlyChanges.setResultAndFlag (h : OnlyChanges W s t) {x : Reg} {a b : Byte} (hx : W (.reg x))
    (hf : W (.reg vf)) : OnlyChanges W s (t.setResultAndFlag x a b) := by
  unfold State.setResultAndFlag
  split
  · exact (h.setReg hx).setReg hf
  · exact (h.setReg hf).setReg hx

theorem OnlyChanges.setIndexFlag (h : OnlyChanges W s t) {i : Word} {b : Byte} (hf : W (.reg vf)) :
    OnlyChanges W s (t.setIndexFlag i b) := by
  unfold State.setIndexFlag
  split
  · exact h
  · exact h.setReg hf

theorem OnlyChanges.setIndex (h : OnlyChanges W s t) {i : Word} (hi : W .index) :
    OnlyChanges W s { t with i := i } := by
  intro p hp
  cases p with
  | index => exact absurd hi hp
  | _ => exact h _ hp

theorem OnlyChanges.blockIndex (h : OnlyChanges W s t) {x : Reg}
    (hi : t.params.blockIIncrement = .xPlusOne → W .index) : OnlyChanges W s (t.blockIndex x) := by
  unfold State.blockIndex
  split
  · exact h
  · exact h.setIndex (hi ‹_›)

theorem OnlyChanges.jumpTo (h : OnlyChanges W s t) {a : Word} (hpc : W .pc) : OnlyChanges W s (t.jumpTo a) := by
  intro p hp
  cases p with
  | pc => exact absurd hpc hp
  | _ => exact h _ hp

theorem OnlyChanges.advance (h : OnlyChanges W s t) (hpc : W .pc) : OnlyChanges W s t.advance :=
  h.jumpTo (a := t.pc + 2) hpc

theorem OnlyChanges.skipIf (h : OnlyChanges W s t) {c : Bool} (hpc : W .pc) : OnlyChanges W s (t.skipIf c) :=
  h.jumpTo (a := if c then t.pc + 4 else t.pc + 2) hpc

theorem OnlyChanges.setSp (h : OnlyChanges W s t) {n : Fin 17} (hsp : W .sp) : OnlyChanges W s { t with sp := n } := by
  intro p hp
  cases p with
  | sp => exact absurd hsp hp
  | _ => exact h _ hp

theorem OnlyChanges.popPc (h : OnlyChanges W s t) {hpos : 0 < t.sp.val} (hsp : W .sp) (hpc : W .pc) :
    OnlyChanges W s (t.popPc hpos) :=
  (h.setSp (n := ⟨t.sp.val - 1, by omega⟩) hsp).jumpTo (a := t.stack[t.sp.val - 1] + 2) hpc

theorem OnlyChanges.pushPc (h : OnlyChanges W s t) {hlt : t.sp.val < 16} (hslot : W (.slot ⟨t.sp.val, hlt⟩))
    (hsp : W .sp) : OnlyChanges W s (t.pushPc hlt) := by
  intro p hp
  have same := h p hp
  cases p with
  | slot k =>
    have hk : t.sp.val ≠ k.val := fun e => hp ((Fin.ext e : (⟨t.sp.val, hlt⟩ : Fin 16) = k) ▸ hslot)
    simpa [SamePart, Vector.getElem_set_ne _ _ hk] using same
  | sp => exact absurd hsp hp
  | _ => exact same

theorem OnlyChanges.setDt (h : OnlyChanges W s t) {b : Byte} (hdt : W .dt) : OnlyChanges W s { t with dt := b } := by
  intro p hp
  cases p with
  | dt => exact absurd hdt hp
  | _ => exact h _ hp

theorem OnlyChanges.setSt (h : OnlyChanges W s t) {b : Byte} (hst : W .st) : OnlyChanges W s { t with st := b } := by
  intro p hp
  cases p with
  | st => exact absurd hst hp
  | _ => exact h _ hp

theorem OnlyChanges.countDraw (h : OnlyChanges W s t) {n : Nat} (hd : W .draws) :
    OnlyChanges W s { t with draws := n } := by
  intro p hp
  cases p with
  | draws => exact absurd hd hp
  | _ => exact h _ hp

theorem OnlyChanges.reportAndJump (h : OnlyChanges W s t) {r : Option UnknownReport} {a : Word} (hr : W .report)
    (hpc : W .pc) : OnlyChanges W s { t with report := r, pc := a } := by
  intro p hp
  cases p with
  | report => exact absurd hr hp
  | pc => exact absurd hpc hp
  | _ => exact h _ hp

theorem OnlyChanges.beginStep (h : OnlyChanges W s t) (hd : W .redraw) (hr : W .report) :
    OnlyChanges W s t.beginStep := by
  intro p hp
  cases p with
  | redraw => exact absurd hd hp
  | report => exact absurd hr hp
  | _ => exact h _ hp

theorem OnlyChanges.draw (h : OnlyChanges W s t) {f : Frame} {b : Bool}
    (hf : ∀ p, ¬ W (.cell p) → f.get p = t.fb.get p) (hr : W .redraw) :
    OnlyChanges W s { t with fb := f, redraw := b } := by
  intro p hp
  have same := h p hp
  cases p with
  | cell q => exact (hf q hp).trans same
  | redraw => exact absurd hr hp
  | _ => exact same

theorem OnlyChanges.storeData (h : OnlyChanges W s t) {bytes : List Byte}
    (hb : ∀ a, t.i.toNat ≤ a → a < t.i.toNat + bytes.length → W (.byte a)) :
    OnlyChanges W s (t.storeData bytes) := by
  intro p hp
  have same := h p hp
  cases p with
  | byte a =>
    refine Eq.trans ?_ same
    rw [State.storeData_mem, Memory.read_writeBytes]
    split
    · have hlen : bytes.length ≤ a - t.i.toNat := by
        by_contra hlt
        exact hp (hb a ‹_› (by omega))
      rw [List.getD_eq_default _ _ hlen]
    · rfl
  | _ => exact same

end

/-! ### What each instruction writes -/

/-- The destinations of an instruction among V0 to VF: its own register, VF as the flag, or x[0] to x[X]. -/
def WritesReg (i : Instr) (r : Reg) : Prop :=
  match i with
  | .addVxVy x _ | .sub x _ | .shr x _ | .subn x _ | .shl x _ => r = x ∨ r = vf
  | .addI _ | .drw _ _ _ => r = vf
  | .ldVxNn x _ | .addVxNn x _ | .ldVxVy x _ | .orVxVy x _ | .andVxVy x _ | .xorVxVy x _ | .rnd x _
  | .ldVxDt x | .ldVxK x => r = x
  | .ldVxMem x => r ≤ x
  | _ => False

/-- The bytes that an instruction stores at I, I + 1, ... -/
def State.storedBytes (s : State) : Instr → List Byte
  | .ldB x => bcdDigits (s.reg x)
  | .ldMemVx x => s.regBlock x
  | _ => []

/-- The parts that the instruction i may write when it runs in s, part by part. -/
def State.Writes (s : State) (i : Instr) : Part → Prop
  | .reg r => WritesReg i r
  | .index => (∃ nnn, i = .ldI nnn) ∨ (∃ x, i = .addI x) ∨ (∃ x, i = .ldF x) ∨
      (s.params.blockIIncrement = .xPlusOne ∧ ∃ x, i = .ldMemVx x ∨ i = .ldVxMem x)
  | .pc => True
  | .slot k => k.val = s.sp.val ∧ ∃ nnn, i = .call nnn
  | .sp => i = .ret ∨ ∃ nnn, i = .call nnn
  | .dt => ∃ x, i = .ldDtVx x
  | .st => ∃ x, i = .ldStVx x
  | .byte a => s.i.toNat ≤ a ∧ a < s.i.toNat + (s.storedBytes i).length
  | .cell p => i = .cls ∨ ∃ x y n, i = .drw x y n ∧ s.Covers x y n p
  | .key _ => False
  | .redraw => i = .cls ∨ ∃ x y n, i = .drw x y n
  | .params => False
  | .draws => ∃ x nn, i = .rnd x nn
  | .report => ∃ nnn, i = .sys nnn

/-- DRW leaves every cell that its sprite does not cover (44_display.md R161). -/
theorem State.get_drawSprite_of_not_covers {s : State} {x y : Reg} {n : Nibble} {p : Pixel}
    (h : ¬ s.Covers x y n p) : (s.drawSprite x y n.toNat).1.get p = s.fb.get p := by
  have nodup : (spritePixels (s.reg x) (s.reg y) 0 (s.dataBytes n.toNat)).Nodup :=
    nodup_spritePixels _ _ _ _ (by have := n.isLt; simp only [State.dataBytes, Memory.length_readBytes]; omega)
  rw [State.drawSprite, (drawPixels_of_nodup _ _ nodup).1, if_neg (mt (mem_sprite_iff_covers s x y n p).1 h)]

/-- The frame of every instruction: it changes only what `State.Writes` lists. -/
theorem exec_onlyChanges {i : Instr} {s t : State} (h : exec i s = .next t) : OnlyChanges (s.Writes i) s t := by
  have start := OnlyChanges.refl (s.Writes i) s
  have pc : s.Writes i .pc := trivial
  cases i with
  | cls =>
    cases h
    exact (start.draw (fun p hp => absurd (.inl rfl) hp) (.inl rfl)).advance pc
  | ret =>
    obtain ⟨_, rfl⟩ := exec_ret_next h
    exact start.popPc (.inl rfl) pc
  | sys nnn =>
    obtain ⟨-, rfl⟩ := exec_sys_next h
    exact start.reportAndJump ⟨nnn, rfl⟩ pc
  | jp nnn | jpV0 nnn =>
    cases h
    exact start.jumpTo pc
  | call nnn =>
    obtain ⟨_, rfl⟩ := exec_call_next h
    exact (start.pushPc ⟨rfl, nnn, rfl⟩ (.inr ⟨nnn, rfl⟩)).jumpTo pc
  | seImm x nn | sneImm x nn | seReg x y | sneReg x y =>
    cases h
    exact start.skipIf pc
  | skp x =>
    obtain ⟨_, -, rfl⟩ := exec_skp_next h
    exact start.skipIf pc
  | sknp x =>
    obtain ⟨_, -, rfl⟩ := exec_sknp_next h
    exact start.skipIf pc
  | ldVxNn x nn | addVxNn x nn | ldVxVy x y | orVxVy x y | andVxVy x y | xorVxVy x y | ldVxDt x =>
    cases h
    exact (start.setReg rfl).advance pc
  | addVxVy x y | sub x y | shr x y | subn x y | shl x y =>
    cases h
    exact (start.setResultAndFlag (.inl rfl) (.inr rfl)).advance pc
  | ldI nnn =>
    cases h
    exact (start.setIndex (.inl ⟨nnn, rfl⟩)).advance pc
  | rnd x nn =>
    cases h
    exact ((start.countDraw ⟨x, nn, rfl⟩).setReg rfl).advance pc
  | drw x y n =>
    obtain ⟨-, rfl⟩ := exec_drw_next h
    refine ((start.draw (fun p hp => ?_) (.inr ⟨x, y, n, rfl⟩)).setReg rfl).advance pc
    exact State.get_drawSprite_of_not_covers fun hc => hp (.inr ⟨x, y, n, rfl, hc⟩)
  | ldVxK x =>
    obtain ⟨_, -, rfl⟩ | ⟨-, rfl⟩ := exec_ldVxK_next h
    · exact (start.setReg rfl).advance pc
    · exact start
  | ldDtVx x =>
    cases h
    exact (start.setDt ⟨x, rfl⟩).advance pc
  | ldStVx x =>
    cases h
    exact (start.setSt ⟨x, rfl⟩).advance pc
  | addI x =>
    cases h
    exact ((start.setIndex (.inr (.inl ⟨x, rfl⟩))).setIndexFlag rfl).advance pc
  | ldF x =>
    cases h
    exact (start.setIndex (.inr (.inr (.inl ⟨x, rfl⟩)))).advance pc
  | ldB x =>
    obtain ⟨-, rfl⟩ := exec_ldB_next h
    exact (start.storeData fun a h₁ h₂ => ⟨h₁, h₂⟩).advance pc
  | ldMemVx x =>
    obtain ⟨-, rfl⟩ := exec_ldMemVx_next h
    refine ((start.storeData fun a h₁ h₂ => ⟨h₁, h₂⟩).blockIndex fun hp => ?_).advance pc
    exact .inr (.inr (.inr ⟨hp, x, .inl rfl⟩))
  | ldVxMem x =>
    obtain ⟨-, rfl⟩ := exec_ldVxMem_next h
    refine ((start.setRegBlock fun r hr => ?_).blockIndex fun hp => ?_).advance pc
    · rw [State.dataBytes, Memory.length_readBytes] at hr
      exact Nat.le_of_lt_succ hr
    · exact .inr (.inr (.inr ⟨hp, x, .inr rfl⟩))

/-! ### The frame of a step -/

theorem State.writes_beginStep (s : State) (i : Instr) (p : Part) : s.beginStep.Writes i p ↔ s.Writes i p := by
  cases p <;> rfl

theorem step_of_fetches {s : State} {i : Instr} (hi : s.Fetches i) : step s = exec i s.beginStep := by
  unfold step
  rw [State.fetch_beginStep, State.fetch_of_fetchable hi.1]
  simp only [hi.2]

/-- The parts that a step from s may write: pc, the two fields of the step entry, and those of the fetched
instruction. -/
def State.StepWrites (s : State) (p : Part) : Prop := p ∈ [.pc, .redraw, .report] ∨ ∃ i, s.Fetches i ∧ s.Writes i p

/-- The frame of a step. -/
theorem step_onlyChanges {s t : State} (h : step s = .next t) : OnlyChanges s.StepWrites s t := by
  have redraw : s.StepWrites .redraw := .inl (by simp)
  have report : s.StepWrites .report := .inl (by simp)
  have entry : OnlyChanges s.StepWrites s s.beginStep := (OnlyChanges.refl _ s).beginStep redraw report
  rcases step_next_fetches h with ⟨i, hi, he⟩ | ⟨-, -, -, rfl⟩
  · intro p hp
    have unwritten : ¬ s.beginStep.Writes i p := fun hw => hp (.inr ⟨i, hi, (s.writes_beginStep i p).1 hw⟩)
    exact (entry p hp).trans (exec_onlyChanges he p unwritten)
  · exact entry.reportAndJump report (.inl (by simp))

/-- A part that a step changes is one that the fetched instruction writes. -/
theorem step_changes {s t : State} (h : step s = .next t) (p : Part) (hp : p ∉ [.pc, .redraw, .report])
    (changed : ¬ SamePart s t p) : ∃ i, s.Fetches i ∧ s.Writes i p := by
  by_contra unwritten
  exact changed (step_onlyChanges h p (not_or.2 ⟨hp, unwritten⟩))

/-- Settles O51: the frame of a step, at one cell. -/
theorem onlyClsAndDrwChangeTheFramebuffer : Obligations.OnlyClsAndDrwChangeTheFramebuffer := by
  intro s t p h changed
  obtain ⟨i, hi, rfl | ⟨x, y, n, rfl, hc⟩⟩ := step_changes h (.cell p) (by simp) changed
  · exact .inl hi
  · exact .inr ⟨x, y, n, hi, hc⟩

/-- Settles O54: the frame of a step, at one slot and at sp. -/
theorem onlyCallAndRetTouchTheStack : Obligations.OnlyCallAndRetTouchTheStack := by
  intro s t h
  refine ⟨fun k changed => ?_, fun changed => ?_⟩
  · obtain ⟨i, hi, hk, nnn, rfl⟩ := step_changes h (.slot k) (by simp) changed
    exact ⟨hk, nnn, hi⟩
  · obtain ⟨i, hi, rfl | ⟨nnn, rfl⟩⟩ := step_changes h .sp (by simp) changed
    · exact .inl hi
    · exact .inr ⟨nnn, hi⟩

/-- Settles O55: the frame of a step, at VF; a block load reaches VF only when its last register is VF. -/
theorem onlyListedInstructionsWriteVf : Obligations.OnlyListedInstructionsWriteVf := by
  intro s t h changed
  obtain ⟨i, hi, hw⟩ := step_changes h (.reg vf) (by simp) changed
  refine ⟨i, hi, ?_⟩
  cases i with
  | addVxVy x y | sub x y | shr x y | subn x y | shl x y | addI x | drw x y n => trivial
  | ldVxNn x nn | addVxNn x nn | ldVxVy x y | orVxVy x y | andVxVy x y | xorVxVy x y | rnd x nn | ldVxDt x | ldVxK x =>
    exact Eq.symm hw
  | ldVxMem x => exact le_antisymm (Fin.le_last x) hw
  | _ => exact hw

/-- Settles O56: the frame of a step, at each timer. -/
theorem onlyTimerMovesChangeTheTimers : Obligations.OnlyTimerMovesChangeTheTimers := by
  intro s t h
  refine ⟨fun changed => ?_, fun changed => ?_⟩
  · obtain ⟨i, hi, x, rfl⟩ := step_changes h .dt (by simp) changed
    exact ⟨x, hi⟩
  · obtain ⟨i, hi, x, rfl⟩ := step_changes h .st (by simp) changed
    exact ⟨x, hi⟩

/-- Settles O57: the frame of a step, at I. -/
theorem onlyIndexInstructionsChangeI : Obligations.OnlyIndexInstructionsChangeI := by
  intro s t h changed
  obtain ⟨i, hi, ⟨nnn, rfl⟩ | ⟨x, rfl⟩ | ⟨x, rfl⟩ | ⟨hp, x, rfl | rfl⟩⟩ := step_changes h .index (by simp) changed
  · exact .inl ⟨nnn, hi⟩
  · exact .inr (.inl ⟨x, hi⟩)
  · exact .inr (.inr (.inl ⟨x, hi⟩))
  · exact .inr (.inr (.inr ⟨hp, x, .inl hi⟩))
  · exact .inr (.inr (.inr ⟨hp, x, .inr hi⟩))

/-! ### The redraw flag -/

/-- From a step entry, where redraw is false, exactly CLS and DRW set it. -/
theorem exec_redraw_iff {i : Instr} {s t : State} (h : exec i s = .next t) (hs : s.redraw = false) :
    t.redraw = true ↔ i = .cls ∨ ∃ x y n, i = .drw x y n := by
  constructor
  · intro ht
    by_contra unwritten
    have same : t.redraw = s.redraw := exec_onlyChanges h .redraw unwritten
    simp [same, hs] at ht
  · rintro (rfl | ⟨x, y, n, rfl⟩)
    · cases h
      rfl
    · obtain ⟨-, rfl⟩ := exec_drw_next h
      rfl

/-- Settles O5: the entry clears the flag, so after the step it is what the instruction made of a cleared flag. -/
theorem redrawIsSetExactlyByClsAndDrw : Obligations.RedrawIsSetExactlyByClsAndDrw := by
  refine ⟨fun s t h => ⟨fun ht => ?_, ?_⟩, fun _ _ => rfl⟩
  · rcases step_next_fetches h with ⟨i, hi, he⟩ | ⟨-, -, -, rfl⟩
    · obtain rfl | ⟨x, y, n, rfl⟩ := (exec_redraw_iff he rfl).1 ht
      · exact .inl hi
      · exact .inr ⟨x, y, n, hi⟩
    · cases ht
  · rintro (hi | ⟨x, y, n, hi⟩)
    · exact (exec_redraw_iff (step_of_fetches hi ▸ h) rfl).2 (.inl rfl)
    · exact (exec_redraw_iff (step_of_fetches hi ▸ h) rfl).2 (.inr ⟨x, y, n, rfl⟩)

/-! ### The keypad -/

theorem transact_loadImage_key (s : State) (image : List Byte) : (transact (.loadImage image) s).2.key = s.key := by
  by_cases hlen : maxImage < image.length <;> simp [transact, State.loadImage, hlen]

theorem transact_step_key (s : State) (k : Fin 16) : (transact .step s).2.key[k] = s.key[k] := by
  cases h : step s with
  | next t =>
    rw [transact_step_next h]
    by_contra changed
    obtain ⟨_, -, hw⟩ := step_changes h (.key k) (by simp) changed
    exact hw
  | fault f =>
    rw [transact_step_fault h]
    rfl
  | refused r => simp only [transact, h]

/-- Settles O52: every port but Reset and SetKey leaves each flag, and SetKey every other flag. -/
theorem onlyKeyEventsChangeTheKeypad : Obligations.OnlyKeyEventsChangeTheKeypad := by
  intro q s k changed
  cases q with
  | reset => exact .inl rfl
  | loadImage image =>
    exact absurd (by rw [transact_loadImage_key]) changed
  | step => exact absurd (transact_step_key s k) changed
  | setKey j pressed =>
    by_cases hj : j = k
    · exact .inr ⟨pressed, by rw [hj]⟩
    · exact absurd (Vector.getElem_set_ne j.isLt k.isLt fun e => hj (Fin.ext e)) changed
  | tick | readFramebuffer | readRedraw => exact absurd rfl changed

/-- The outcome with another keypad in its next state. -/
def withKeys (keys : Vector Bool 16) : Result → Result
  | .next t => .next { t with key := keys }
  | .fault f => .fault f
  | .refused r => .refused r

section
variable (s : State) (keys : Vector Bool 16)

theorem setResultAndFlag_withKeys (x : Reg) (a b : Byte) :
    ({ s with key := keys } : State).setResultAndFlag x a b = { s.setResultAndFlag x a b with key := keys } := by
  unfold State.setResultAndFlag
  cases s.params.vfWriteOrder <;> rfl

theorem setIndexFlag_withKeys (i : Word) (b : Byte) :
    ({ s with key := keys } : State).setIndexFlag i b = { s.setIndexFlag i b with key := keys } := by
  unfold State.setIndexFlag
  cases s.params.addiOverflowLimit <;> rfl

theorem blockIndex_withKeys (x : Reg) :
    ({ s with key := keys } : State).blockIndex x = { s.blockIndex x with key := keys } := by
  unfold State.blockIndex
  cases s.params.blockIIncrement <;> rfl

theorem checkData_withKeys (w : Word) (n : Nat) {t u : State} (h : u = { t with key := keys }) :
    ({ s with key := keys } : State).checkData w n (.next u) = withKeys keys (s.checkData w n (.next t)) := by
  subst h
  unfold State.checkData
  cases lowestOutside s.i.toNat n <;> rfl

end

/-- An instruction other than SKP, SKNP and LD Vx, K does the same under every keypad. -/
theorem exec_withKeys {i : Instr} (s : State) (keys : Vector Bool 16) (hskp : ∀ x, i ≠ .skp x)
    (hsknp : ∀ x, i ≠ .sknp x) (hread : ∀ x, i ≠ .ldVxK x) :
    exec i { s with key := keys } = withKeys keys (exec i s) := by
  cases i with
  | skp x => exact absurd rfl (hskp x)
  | sknp x => exact absurd rfl (hsknp x)
  | ldVxK x => exact absurd rfl (hread x)
  | addVxVy x y | sub x y | shr x y | subn x y | shl x y =>
    exact congrArg (fun u : State => (.next u.advance : Result)) (setResultAndFlag_withKeys s keys x _ _)
  | addI x =>
    exact congrArg (fun u : State => (.next u.advance : Result)) (setIndexFlag_withKeys { s with i := _ } keys _ _)
  | call nnn =>
    simp only [exec, execCall]
    split <;> rfl
  | ret =>
    simp only [exec, execRet]
    split <;> rfl
  | sys nnn =>
    simp only [exec, execSys, unknownOpcode]
    split <;> rfl
  | drw x y n | ldB x => exact checkData_withKeys s keys _ _ rfl
  | ldMemVx x =>
    exact checkData_withKeys s keys _ _ (congrArg State.advance (blockIndex_withKeys (s.storeData _) keys x))
  | ldVxMem x =>
    exact checkData_withKeys s keys _ _ (congrArg State.advance (blockIndex_withKeys (s.setRegBlock _) keys x))
  | _ => rfl

/-- Settles O53: by the case split of `exec_withKeys`. -/
theorem onlyKeyInstructionsReadTheKeypad : Obligations.OnlyKeyInstructionsReadTheKeypad := by
  intro i s keys hskp hsknp hread
  rw [exec_withKeys s keys hskp hsknp hread]
  cases exec i s <;> rfl

/-! ### How a step moves pc -/

theorem pc_add_toNat {s : State} (hf : s.Fetchable) {d : Word} (hd : d.toNat ≤ 4) :
    (s.pc + d).toNat = s.pc.toNat + d.toNat := by
  have bound : s.pc.toNat + 1 < 4096 := hf
  exact BitVec.toNat_add_of_lt (by omega)

theorem skipIf_pc_toNat {s : State} (hf : s.Fetchable) (c : Bool) :
    (s.skipIf c).pc.toNat = s.pc.toNat + if c then 4 else 2 := by
  cases c
  · exact pc_add_toNat hf (d := 2) (by decide)
  · exact pc_add_toNat hf (d := 4) (by decide)

/-- The instructions that move pc by 2 whenever they complete: all but jumps, calls, returns, skips and the key read. -/
def AdvancesByTwo : Instr → Prop
  | .jp _ | .call _ | .jpV0 _ | .ret | .seImm _ _ | .sneImm _ _ | .seReg _ _ | .sneReg _ _ | .skp _ | .sknp _
  | .ldVxK _ => False
  | _ => True

theorem exec_pc_of_advancesByTwo {i : Instr} {s t : State} (hi : AdvancesByTwo i) (h : exec i s = .next t) :
    t.pc = s.pc + 2 := by
  cases i with
  | jp nnn | call nnn | jpV0 nnn | ret | seImm x nn | sneImm x nn | seReg x y | sneReg x y | skp x | sknp x | ldVxK x =>
    exact hi.elim
  | sys nnn =>
    obtain ⟨-, rfl⟩ := exec_sys_next h
    rfl
  | drw x y n =>
    obtain ⟨-, rfl⟩ := exec_drw_next h
    rfl
  | ldB x =>
    obtain ⟨-, rfl⟩ := exec_ldB_next h
    rfl
  | ldMemVx x =>
    obtain ⟨-, rfl⟩ := exec_ldMemVx_next h
    simp
  | ldVxMem x =>
    obtain ⟨-, rfl⟩ := exec_ldVxMem_next h
    simp
  | _ =>
    cases h
    simp

theorem step_pc_of_advancesByTwo {i : Instr} {s t : State} (hi : s.Fetches i) (h : step s = .next t)
    (ha : AdvancesByTwo i) : t.pc.toNat = s.pc.toNat + 2 := by
  rw [exec_pc_of_advancesByTwo ha (step_of_fetches hi ▸ h)]
  exact pc_add_toNat hi.1 (d := 2) (by decide)

/-- 41_control.md R118: the target is exact, since NNN + V0 is at most 0x10FE. -/
theorem jumpV0Target_toNat (s : State) (nnn : Addr12) : (s.jumpV0Target nnn).toNat = nnn.toNat + (s.reg 0).toNat := by
  have := nnn.isLt
  have := (s.reg 0).isLt
  rw [State.jumpV0Target, BitVec.toNat_add, addrOperand_toNat, BitVec.toNat_setWidth]
  omega

/-- The words of the list of 30_encoding.md R85 to R89 decode to no instruction but SYS. -/
theorem eq_sys_of_unknownWord {w : Word} {i : Instr} (hw : UnknownWord w.toNat) (h : decodeWord w = .ok i) :
    ∃ nnn, i = .sys nnn := by
  simp only [UnknownWord, ← fieldG_toNat, ← fieldN_toNat, ← fieldNN_toNat] at hw
  have nonzero : (fieldN w).toNat ≠ 0 → fieldN w ≠ 0#4 := mt fun e => by rw [e]; rfl
  unfold decodeWord at h
  rcases hw with ⟨hg, hcls, hret⟩ | ⟨hg, hn⟩ | ⟨hg, hn⟩ | ⟨hg, hn⟩ | ⟨hg, hn⟩ | ⟨hg, hn⟩ <;> rw [hg] at h
  · simp only [decodeGroup0] at h
    rw [if_neg fun e => hcls (by rw [e]; rfl), if_neg fun e => hret (by rw [e]; rfl)] at h
    exact ⟨fieldNNN w, (Except.ok.inj h).symm⟩
  · simp [nonzero hn] at h
  · simp only [decodeGroup8] at h
    split at h <;> simp_all
  · simp [nonzero hn] at h
  · simp only [decodeGroupE] at h
    split at h <;> simp_all
  · simp only [decodeGroupF] at h
    split at h <;> simp_all

theorem step_pc_of_unknownWord {s t : State} (h : step s = .next t) (hw : UnknownWord s.wordAtPc) :
    t.pc.toNat = s.pc.toNat + 2 := by
  rcases step_next_fetches h with ⟨i, hi, -⟩ | ⟨hf, -, -, rfl⟩
  · have word : (BitVec.ofNat 16 s.wordAtPc).toNat = s.wordAtPc := Nat.mod_eq_of_lt s.wordAtPc_lt
    obtain ⟨nnn, rfl⟩ := eq_sys_of_unknownWord (word.symm ▸ hw) hi.2
    exact step_pc_of_advancesByTwo hi h trivial
  · exact pc_add_toNat hf (d := 2) (by decide)

theorem transact_stepFaulted_pc {s : State} {f : Fault} (h : (transact .step s).1 = .stepFaulted f) :
    (transact .step s).2.pc = s.pc := by
  cases hs : step s with
  | next t =>
    rw [transact_step_next hs] at h
    cases h
  | fault g => rw [transact_step_fault hs, State.beginStep_pc]
  | refused r => simp only [transact, hs]

/-- Settles O46: the instructions that set pc by their own rule, one by one; the rest advance by 2. -/
theorem stepMovesPcAsListed : Obligations.StepMovesPcAsListed := by
  refine ⟨fun s t h i hi => ?_, fun s t => step_pc_of_unknownWord, fun s f => transact_stepFaulted_pc⟩
  have he : exec i s.beginStep = .next t := step_of_fetches hi ▸ h
  have skip := skipIf_pc_toNat (s := s.beginStep) hi.1
  cases i with
  | jp nnn =>
    cases he
    exact addrOperand_toNat nnn
  | call nnn =>
    obtain ⟨_, rfl⟩ := exec_call_next he
    exact addrOperand_toNat nnn
  | jpV0 nnn =>
    cases he
    exact jumpV0Target_toNat s nnn
  | ret =>
    obtain ⟨(hpos : 0 < s.sp.val), rfl⟩ := exec_ret_next he
    refine ⟨⟨s.sp.val - 1, by omega⟩, Nat.sub_add_cancel hpos, rfl, fun inv => ?_⟩
    have saved : s.stack[s.sp.val - 1].toNat ≤ 0xFFE :=
      inv.savedBound ⟨s.sp.val - 1, by omega⟩ (Nat.sub_lt hpos Nat.one_pos)
    refine BitVec.toNat_add_of_lt ?_
    show s.stack[s.sp.val - 1].toNat + 2 < 65536
    omega
  | seImm x nn =>
    cases he
    simpa using skip (s.reg x == nn)
  | sneImm x nn =>
    cases he
    simpa using skip (s.reg x != nn)
  | seReg x y =>
    cases he
    simpa using skip (s.reg x == s.reg y)
  | sneReg x y =>
    cases he
    simpa using skip (s.reg x != s.reg y)
  | skp x =>
    obtain ⟨k, hk, rfl⟩ := exec_skp_next he
    exact ⟨k, (testsKey_iff s x k).2 hk, skip s.key[k]⟩
  | sknp x =>
    obtain ⟨k, hk, rfl⟩ := exec_sknp_next he
    refine ⟨k, (testsKey_iff s x k).2 hk, (skip (!s.key[k])).trans ?_⟩
    cases s.key[k] <;> rfl
  | ldVxK x =>
    obtain ⟨k, hk, rfl⟩ | ⟨hk, rfl⟩ := exec_ldVxK_next he
    · refine ⟨fun released => ?_, fun _ => pc_add_toNat hi.1 (d := 2) (by decide)⟩
      have none_pressed : s.firstKey = none := s.firstKey_eq_none.2 released
      cases none_pressed.symm.trans hk
    · refine ⟨fun _ => rfl, fun ⟨k, pressed⟩ => ?_⟩
      cases ((s.firstKey_eq_none.1 hk) k).symm.trans pressed
  | _ => exact step_pc_of_advancesByTwo hi h trivial

/-! ### The invariant -/

/-- Memory after an instruction: its stored bytes at I. -/
theorem exec_mem {i : Instr} {s t : State} (h : exec i s = .next t) :
    t.mem = s.mem.writeBytes s.i.toNat (s.storedBytes i) := by
  cases i with
  | ret =>
    obtain ⟨_, rfl⟩ := exec_ret_next h
    rfl
  | sys nnn =>
    obtain ⟨-, rfl⟩ := exec_sys_next h
    rfl
  | call nnn =>
    obtain ⟨_, rfl⟩ := exec_call_next h
    rfl
  | drw x y n =>
    obtain ⟨-, rfl⟩ := exec_drw_next h
    rfl
  | skp x =>
    obtain ⟨_, -, rfl⟩ := exec_skp_next h
    rfl
  | sknp x =>
    obtain ⟨_, -, rfl⟩ := exec_sknp_next h
    rfl
  | ldVxK x =>
    obtain ⟨_, -, rfl⟩ | ⟨-, rfl⟩ := exec_ldVxK_next h <;> rfl
  | ldB x =>
    obtain ⟨-, rfl⟩ := exec_ldB_next h
    rfl
  | ldMemVx x =>
    obtain ⟨-, rfl⟩ := exec_ldMemVx_next h
    simp [State.storedBytes]
  | ldVxMem x =>
    obtain ⟨-, rfl⟩ := exec_ldVxMem_next h
    simp [State.storedBytes, Memory.writeBytes]
  | _ =>
    cases h
    simp [State.storedBytes, Memory.writeBytes]

/-- An instruction that completes stores inside memory or stores nothing (20_memory.md R52). -/
theorem storedBytes_in_memory {i : Instr} {s t : State} (h : exec i s = .next t) :
    s.storedBytes i = [] ∨ s.i.toNat + (s.storedBytes i).length ≤ memSize := by
  cases i with
  | ldB x => exact .inr (exec_ldB_next h).1
  | ldMemVx x =>
    rw [State.storedBytes, State.length_regBlock]
    exact .inr (exec_ldMemVx_next h).1
  | _ => exact .inl rfl

theorem exec_mem_wf {i : Instr} {s t : State} (hm : s.mem.wf) (h : exec i s = .next t) : t.mem.wf := by
  rw [exec_mem h]
  rcases storedBytes_in_memory h with hnil | hfit
  · rw [hnil]
    exact hm
  · exact Memory.wf_writeBytes _ _ _ hm hfit

/-- Every saved address on the live stack stays bounded: CALL pushes a pc that was fetched in bounds, RET only shortens
the live part, and the others leave the stack (41_control.md R112, R117). -/
theorem exec_savedBound {i : Instr} {s t : State} (hf : s.Fetchable)
    (saved : ∀ k : Fin 16, k.val < s.sp.val → s.stack[k].toNat ≤ 0xFFE) (h : exec i s = .next t) :
    ∀ k : Fin 16, k.val < t.sp.val → t.stack[k].toNat ≤ 0xFFE := by
  intro k hk
  cases i with
  | call nnn =>
    obtain ⟨hlt, rfl⟩ := exec_call_next h
    have hk : k.val < s.sp.val + 1 := hk
    have pushed : s.pc.toNat + 1 < 4096 := hf
    by_cases top : s.sp.val = k.val
    · have slot : ((s.pushPc hlt).jumpTo (addrOperand nnn)).stack[k] = s.pc := by simp [top]
      rw [slot]
      omega
    · simpa [Vector.getElem_set_ne _ _ top] using saved k (by omega)
  | ret =>
    obtain ⟨_, rfl⟩ := exec_ret_next h
    exact saved k (Nat.lt_of_lt_of_le hk (Nat.sub_le _ _))
  | _ =>
    have sp : t.sp = s.sp := exec_onlyChanges h .sp (by simp [State.Writes])
    have slot : t.stack[k] = s.stack[k] := exec_onlyChanges h (.slot k) (by simp [State.Writes])
    rw [slot]
    exact saved k (sp ▸ hk)

/-- 10_state.md R26: pc stays at most 0x10FE, which JP V0 alone reaches. -/
theorem step_pc_le {s t : State} (inv : s.Inv) (h : step s = .next t) : t.pc.toNat ≤ 0x10FE := by
  rcases step_next_fetches h with ⟨i, hi, -⟩ | ⟨hf, -, -, rfl⟩
  · have bound : s.pc.toNat + 1 < 4096 := hi.1
    have moves := stepMovesPcAsListed.1 s t h i hi
    cases i with
    | jp nnn | call nnn =>
      have := nnn.isLt
      change t.pc.toNat = nnn.toNat at moves
      omega
    | jpV0 nnn =>
      have := nnn.isLt
      have := (s.reg 0).isLt
      change t.pc.toNat = nnn.toNat + (s.reg 0).toNat at moves
      omega
    | ret =>
      obtain ⟨k, hk, -, exact_sum⟩ := moves
      have := inv.savedBound k (by omega)
      have := exact_sum inv
      omega
    | seImm | sneImm | seReg | sneReg =>
      dsimp only at moves
      split at moves <;> omega
    | skp x | sknp x =>
      obtain ⟨k, -, moves⟩ := moves
      split at moves <;> omega
    | ldVxK x =>
      by_cases pressed : ∃ k : Fin 16, s.key[k] = true
      · have := moves.2 pressed
        omega
      · rw [moves.1 (by simpa using pressed)]
        omega
    | _ =>
      dsimp only at moves
      omega
  · have bound : s.pc.toNat + 1 < 4096 := hf
    have : (s.pc + 2).toNat = s.pc.toNat + 2 := pc_add_toNat hf (d := 2) (by decide)
    show (s.pc + 2).toNat ≤ 0x10FE
    omega

/-- Settles O44: the three parts of the invariant, each kept by the step. -/
theorem everyStepKeepsTheInvariant : Obligations.EveryStepKeepsTheInvariant := by
  intro s t inv h
  refine ⟨?_, step_pc_le inv h, ?_⟩ <;> rcases step_next_fetches h with ⟨i, hi, he⟩ | ⟨-, -, -, rfl⟩
  · exact exec_mem_wf (s := s.beginStep) inv.memory he
  · exact inv.memory
  · exact exec_savedBound (s := s.beginStep) hi.1 inv.savedBound he
  · exact inv.savedBound

/-! ### Reset -/

/-- Settles O43: memory lists no cell and no address is saved. -/
theorem resetSatisfiesTheInvariant : Obligations.ResetSatisfiesTheInvariant where
  memory := Memory.wf_nil
  pcBound := by decide
  savedBound _ hk := absurd hk (Nat.not_lt_zero _)

/-- The registers, the stack, the grid and the keypad of reset hold zeros; memory is what is left to say. -/
theorem hasResetValues_of_mem {m : Memory} {p : Params} {n : Nat} (font : ∀ k : Fin 80, m.read k.val = p.font[k])
    (zeros : ∀ a, 80 ≤ a → m.read a = 0) :
    State.HasResetValues { State.reset with mem := m, params := p, draws := n } where
  registers r := Vector.getElem_replicate r.isLt
  index := rfl
  entry := rfl
  emptyStack := rfl
  slots k := Vector.getElem_replicate k.isLt
  font := font
  zeros := zeros
  timers := ⟨rfl, rfl⟩
  framebuffer := Frame.get_clear
  keypad k := Vector.getElem_replicate k.isLt
  redraw := rfl

theorem resetAll_hasResetValues (s : State) : s.resetAll.HasResetValues :=
  hasResetValues_of_mem (fun k => by rw [read_resetMemory, dif_pos k.isLt]; rfl)
    fun a ha => by rw [read_resetMemory, dif_neg (by omega)]

theorem reset_hasResetValues : State.reset.HasResetValues :=
  hasResetValues_of_mem (m := []) (n := 0) (by decide) fun a ha => List.getD_eq_default _ _ ha

/-- Settles O1: the empty memory reads as the default font, and `resetMemory` as the parameter FONT. -/
theorem resetLeavesEveryPieceOfState : Obligations.ResetLeavesEveryPieceOfState :=
  ⟨reset_hasResetValues, fun _ _ => rfl, fun s => ⟨resetAll_hasResetValues s, rfl, rfl⟩⟩

end Sys2Proof.Machine

namespace Sys2Proof.Machine

/-! ### The invariant over the ports -/

theorem resetAll_inv (s : State) : s.resetAll.Inv where
  memory := wf_resetMemory s.params
  pcBound := resetSatisfiesTheInvariant.pcBound
  savedBound := resetSatisfiesTheInvariant.savedBound

/-- An accepted image ends inside memory (70_reset_and_hazards.md R236). -/
theorem State.Inv.loadImage {s t : State} (inv : s.Inv) {image : List Byte} (h : s.loadImage image = some t) :
    t.Inv := by
  unfold State.loadImage at h
  split at h
  · cases h
  · rename_i short
    cases h
    have fits : loadBase + image.length ≤ memSize := by
      simp only [loadBase, memSize, maxImage] at short ⊢
      omega
    exact ⟨Memory.wf_writeBytes _ _ _ inv.memory fits, inv.pcBound, inv.savedBound⟩

/-- Every port operation keeps the invariant. A faulting step leaves its entry, and a tick or a key event leaves the
three parts the invariant speaks of. -/
theorem transact_keeps_inv (p : Port) {s : State} (inv : s.Inv) : (transact p s).2.Inv := by
  cases p with
  | reset => exact resetAll_inv s
  | loadImage image =>
    simp only [transact]
    split
    · exact inv.loadImage ‹_›
    · exact inv
  | step =>
    simp only [transact]
    split
    · exact everyStepKeepsTheInvariant _ _ inv ‹_›
    · exact ⟨inv.memory, inv.pcBound, inv.savedBound⟩
    · exact inv
  | tick | setKey k pressed => exact ⟨inv.memory, inv.pcBound, inv.savedBound⟩
  | readFramebuffer | readRedraw => exact inv

/-- Settles O45: by induction on the schedule, each operation keeping the invariant. -/
theorem everyScheduleKeepsTheInvariant : Obligations.EveryScheduleKeepsTheInvariant := by
  intro ps
  induction ps with
  | nil => exact fun _ inv => inv
  | cons p ps ih => exact fun s inv => ih _ (transact_keeps_inv p inv)

/-! ### The bytes that change -/

/-- Settles O50: the frame of a step, at one byte; the stored bytes of a completed store lie in memory. -/
theorem onlyStoresChangeMemory : Obligations.OnlyStoresChangeMemory := by
  intro s t a h changed
  obtain ⟨i, hi, low, high⟩ := step_changes h (.byte a) (by simp) changed
  have he : exec i s.beginStep = .next t := step_of_fetches hi ▸ h
  cases i with
  | ldB x =>
    obtain ⟨fits, -⟩ := exec_ldB_next he
    have high : a < s.i.toNat + 3 := high
    exact ⟨low, high.trans_le fits, .inl ⟨x, hi, Nat.le_of_lt_succ high⟩⟩
  | ldMemVx x =>
    obtain ⟨fits, -⟩ := exec_ldMemVx_next he
    rw [State.storedBytes, State.length_regBlock] at high
    exact ⟨low, high.trans_le fits, .inr ⟨x, hi, Nat.le_of_lt_succ high⟩⟩
  | _ => exact absurd high (Nat.not_lt.2 low)

/-! ### The fetch, byte by byte -/

/-- 20_memory.md R54: the fetched word has mem[a] as its high byte and mem[a + 1] as its low byte. -/
theorem fetch_bytes {s : State} {a : Nat} (hpc : s.pc.toNat = a) (ha : a + 1 < 4096) :
    ∃ w, s.fetch = .ok w ∧ w.toNat / 256 = (s.mem.read a).toNat ∧ w.toNat % 256 = (s.mem.read (a + 1)).toNat := by
  subst hpc
  have low := (s.mem.read (s.pc.toNat + 1)).isLt
  refine ⟨_, s.fetch_eq.trans (if_pos ha), ?_, ?_⟩ <;> rw [wordOfBytes_toNat] <;> omega

/-- Settles O4: the bytes of the fetch, where a written byte reads back. -/
theorem fetchIsBigEndian : Obligations.FetchIsBigEndian := by
  have pc_toNat (a : Nat) (ha : a + 1 < 4096) : (BitVec.ofNat 16 a).toNat = a := Nat.mod_eq_of_lt (by omega)
  refine ⟨fun s h => ⟨_, State.fetch_of_fetchable h, Nat.mod_eq_of_lt s.wordAtPc_lt⟩,
    fun s a b ha => ?_, fun s a b ha => ?_⟩
  · obtain ⟨w, hw, high, -⟩ := fetch_bytes (s := { s with mem := _, pc := _ }) (pc_toNat a ha) ha
    exact ⟨w, hw, by rw [high, Memory.read_write, if_pos rfl]⟩
  · obtain ⟨w, hw, -, low⟩ := fetch_bytes (s := { s with mem := _, pc := _ }) (pc_toNat a ha) ha
    exact ⟨w, hw, by rw [low, Memory.read_write, if_pos rfl]⟩

/-! ### The fetch after a store -/

theorem byte_eq_ofNat_iff {b : Byte} {n : Nat} (hn : n < 256) : b = BitVec.ofNat 8 n ↔ b.toNat = n := by
  rw [← BitVec.toNat_inj, BitVec.toNat_ofNat, Nat.mod_eq_of_lt hn]

/-- The digits that LD B stores are bytes, so their values name them. -/
theorem storesByte_ldB_iff {s : State} {x : Reg} {a : Nat} {b : Byte} :
    s.StoresByte (.ldB x) a b ↔
      (a = s.i.toNat ∧ b = BitVec.ofNat 8 ((s.reg x).toNat / 100)) ∨
      (a = s.i.toNat + 1 ∧ b = BitVec.ofNat 8 ((s.reg x).toNat / 10 % 10)) ∨
      (a = s.i.toNat + 2 ∧ b = BitVec.ofNat 8 ((s.reg x).toNat % 10)) := by
  have := (s.reg x).isLt
  rw [byte_eq_ofNat_iff (by omega), byte_eq_ofNat_iff (by omega), byte_eq_ofNat_iff (by omega)]
  simp [State.StoresByte]

theorem storesByte_ldMemVx_iff {s : State} {x : Reg} {a : Nat} {b : Byte} :
    s.StoresByte (.ldMemVx x) a b ↔ ∃ k ≤ x, a = s.i.toNat + k.val ∧ b = s.reg k := by
  simp [State.StoresByte]

/-- What `State.StoresByte` says in terms of `State.storedBytes`: b is the byte at that distance from I. -/
theorem storesByte_iff {s : State} {i : Instr} {a : Nat} {b : Byte} (old : Byte) :
    s.StoresByte i a b ↔
      ∃ k < (s.storedBytes i).length, a = s.i.toNat + k ∧ b = (s.storedBytes i).getD k old := by
  cases i with
  | ldB x =>
    rw [storesByte_ldB_iff]
    constructor
    · rintro (h | h | h)
      exacts [⟨0, Nat.zero_lt_succ 2, h⟩, ⟨1, Nat.one_lt_succ_succ 1, h⟩, ⟨2, Nat.lt_succ_self 2, h⟩]
    · rintro ⟨k, hk, h⟩
      match k, hk with
      | 0, _ => exact .inl h
      | 1, _ => exact .inr (.inl h)
      | 2, _ => exact .inr (.inr h)
  | ldMemVx x =>
    rw [storesByte_ldMemVx_iff]
    simp only [State.storedBytes, State.length_regBlock, State.getD_regBlock]
    constructor
    · rintro ⟨k, hk, ha, hb⟩
      exact ⟨k.val, Nat.lt_succ_of_le hk, ha, by rwa [dif_pos (Fin.le_def.1 hk)]⟩
    · rintro ⟨k, hk, ha, hb⟩
      have hk : k ≤ x.val := Nat.le_of_lt_succ hk
      rw [dif_pos hk] at hb
      exact ⟨⟨k, by omega⟩, hk, ha, hb⟩
  | _ => simp [State.StoresByte, State.storedBytes]

/-- Memory after an instruction holds each byte it stored. -/
theorem exec_read_of_storesByte {i : Instr} {s t : State} {a : Nat} {b : Byte} (h : exec i s = .next t)
    (stored : s.StoresByte i a b) : t.mem.read a = b := by
  obtain ⟨k, -, rfl, rfl⟩ := (storesByte_iff (s.mem.read a)).1 stored
  rw [exec_mem h, Memory.read_writeBytes, if_pos (Nat.le_add_right _ _), Nat.add_sub_cancel_left]

/-- Where an instruction stored no byte, memory holds the old one. -/
theorem exec_read_of_not_storesByte {i : Instr} {s t : State} {a : Nat} (h : exec i s = .next t)
    (unstored : ¬ ∃ b, s.StoresByte i a b) : t.mem.read a = s.mem.read a := by
  refine exec_onlyChanges h (.byte a) fun ⟨low, high⟩ => unstored ⟨(s.storedBytes i).getD (a - s.i.toNat) 0, ?_⟩
  exact (storesByte_iff 0).2 ⟨a - s.i.toNat, by omega, by omega, rfl⟩

/-- Settles O36: the fetch reads the bytes of the new memory. -/
theorem nextFetchSeesTheStoredWord : Obligations.NextFetchSeesTheStoredWord := by
  intro i s t u h hmem hf
  obtain ⟨w, hw, high, low⟩ := fetch_bytes rfl hf
  rw [hmem] at high low
  refine ⟨w, hw, fun b stored => ?_, fun b stored => ?_, fun unstored => ?_, fun unstored => ?_,
    fun j hj => step_of_fetches ⟨hf, ?_⟩⟩
  · rw [high, exec_read_of_storesByte h stored]
  · rw [low, exec_read_of_storesByte h stored]
  · rw [high, exec_read_of_not_storesByte h unstored]
  · rw [low, exec_read_of_not_storesByte h unstored]
  · rwa [← Except.ok.inj (hw.symm.trans (State.fetch_of_fetchable hf))]

end Sys2Proof.Machine

namespace Sys2Proof

/-! ### The word of an instruction decodes to it -/

/-- The word of SYS is not that of CLS or RET, whose addresses SYS may not have (30_encoding.md R85). -/
theorem packAddr_zero_ne {nnn : Addr12} (hi : (Instr.sys nnn).wellFormed = true) :
    packAddr 0x0#4 nnn ≠ 0x00E0#16 ∧ packAddr 0x0#4 nnn ≠ 0x00EE#16 := by
  obtain ⟨notCls, notRet⟩ : nnn ≠ 0x0E0 ∧ nnn ≠ 0x0EE := by simpa [Instr.wellFormed] using hi
  have address {a : Word} (h : packAddr 0x0 nnn = a) : nnn = fieldNNN a := h ▸ (fieldNNN_packAddr 0x0 nnn).symm
  exact ⟨fun h => notCls (address h), fun h => notRet (address h)⟩

/-- Each format gives its fields back, so the group and the function code select the instruction's own arm. -/
theorem decodeWord_encode {i : Instr} (hi : i.wellFormed = true) : decodeWord (encode i) = .ok i := by
  cases i with
  | cls | ret => rfl
  | sys nnn =>
    obtain ⟨notCls, notRet⟩ := packAddr_zero_ne hi
    simp [encode, decodeWord, decodeGroup0, notCls, notRet]
  | jp | call | ldI | jpV0 => simp [encode, decodeWord]
  | seImm | sneImm | ldVxNn | addVxNn | rnd => simp [encode, decodeWord]
  | seReg | sneReg | drw => simp [encode, decodeWord]
  | ldVxVy | orVxVy | andVxVy | xorVxVy | addVxVy | sub | shr | subn | shl =>
    simp [encode, decodeWord, decodeGroup8]
  | skp | sknp => simp [encode, decodeWord, decodeGroupE]
  | ldVxDt | ldVxK | ldDtVx | ldStVx | addI | ldF | ldB | ldMemVx | ldVxMem =>
    simp [encode, decodeWord, decodeGroupF]

/-- The decoder of bytes is the decoder of their word, and leaves the rest (30_encoding.md R80). -/
theorem decodeBytes_bytesOfWord {w : Word} {i : Instr} (h : decodeWord w = .ok i) (rest : List Byte) :
    decodeBytes (bytesOfWord w ++ rest) = .ok (i, rest) := by
  simp [bytesOfWord, decodeBytes, Machine.wordOfBytes_bytesOfWord, h]

/-- Settles O47: the fields of the packed word are the operands, and the two bytes give the word back. -/
theorem decodeOfEncodeGivesTheInstruction : Obligations.DecodeOfEncodeGivesTheInstruction :=
  fun _ rest hi => ⟨decodeWord_encode hi, decodeBytes_bytesOfWord (decodeWord_encode hi) rest⟩

/-! ### A decoded word is the word of its instruction -/

section
variable {w : Word} {g : Nibble}

theorem packAddr_of_group (hg : (fieldG w).toNat = g.toNat) : packAddr g (fieldNNN w) = w :=
  BitVec.eq_of_toNat_eq hg ▸ packAddr_fields w

theorem packXNN_of_group (hg : (fieldG w).toNat = g.toNat) : packXNN g (fieldX w) (fieldNN w) = w :=
  BitVec.eq_of_toNat_eq hg ▸ packXNN_fields w

theorem packXYN_of_group (hg : (fieldG w).toNat = g.toNat) : packXYN g (fieldX w) (fieldY w) (fieldN w) = w :=
  BitVec.eq_of_toNat_eq hg ▸ packXYN_fields w

/-- The word of format XFF with this group and function code. -/
theorem packXNN_of_function {nn : Byte} (hg : (fieldG w).toNat = g.toNat) (hf : (fieldNN w).toNat = nn.toNat) :
    packXNN g (fieldX w) nn = w :=
  BitVec.eq_of_toNat_eq hf ▸ packXNN_of_group hg

/-- The word of format XYF with this group and function code. -/
theorem packXYN_of_function {n : Nibble} (hg : (fieldG w).toNat = g.toNat) (hf : (fieldN w).toNat = n.toNat) :
    packXYN g (fieldX w) (fieldY w) n = w :=
  BitVec.eq_of_toNat_eq hf ▸ packXYN_of_group hg

end

/-- The list of the Unknown words in the fields that the decoder reads. -/
theorem unknownWord_iff_fields (w : Word) : Machine.UnknownWord w.toNat ↔
    ((fieldG w).toNat = 0x0 ∧ w ≠ 0x00E0#16 ∧ w ≠ 0x00EE#16) ∨
    ((fieldG w).toNat = 0x5 ∧ fieldN w ≠ 0#4) ∨
    ((fieldG w).toNat = 0x8 ∧ (fieldN w).toNat ∉ [0x0, 0x1, 0x2, 0x3, 0x4, 0x5, 0x6, 0x7, 0xE]) ∨
    ((fieldG w).toNat = 0x9 ∧ fieldN w ≠ 0#4) ∨
    ((fieldG w).toNat = 0xE ∧ (fieldNN w).toNat ∉ [0x9E, 0xA1]) ∨
    ((fieldG w).toNat = 0xF ∧
      (fieldNN w).toNat ∉ [0x07, 0x0A, 0x15, 0x18, 0x1E, 0x29, 0x33, 0x55, 0x65]) := by
  simp only [Machine.UnknownWord, ← BitVec.toNat_inj, Ne, fieldG_toNat, fieldN_toNat, fieldNN_toNat,
    BitVec.reduceToNat]

/-- What the decoder may answer for the word w: the well-formed instruction whose word it is, or the error that names an
Unknown word (30_encoding.md R84). -/
def SoundDecode (w : Word) : Except DecodeError Instr → Prop
  | .ok i => encode i = w ∧ i.wellFormed = true
  | .error e => e = .unknown w ∧ Machine.UnknownWord w.toNat

section
variable {w : Word}

/-- Group 0: CLS, RET and SYS, by the whole word (30_encoding.md R85). -/
theorem soundDecode_group0 (hg : (fieldG w).toNat = 0x0) : SoundDecode w (decodeGroup0 w) := by
  have word : packAddr 0x0 (fieldNNN w) = w := packAddr_of_group hg
  unfold decodeGroup0
  split_ifs with hcls hret
  · exact ⟨hcls.symm, rfl⟩
  · exact ⟨hret.symm, rfl⟩
  · have notCls : fieldNNN w ≠ 0x0E0#12 := fun e => hcls (word.symm.trans (congrArg _ e))
    have notRet : fieldNNN w ≠ 0x0EE#12 := fun e => hret (word.symm.trans (congrArg _ e))
    exact ⟨word, by simp [Instr.wellFormed, notCls, notRet]⟩

/-- Group 8: a function code of w[3:0] names the instruction, any other is Unknown (30_encoding.md R87). -/
theorem soundDecode_group8 (hg : (fieldG w).toNat = 0x8) : SoundDecode w (decodeGroup8 w) := by
  unfold decodeGroup8
  split
  case h_10 => exact ⟨rfl, (unknownWord_iff_fields w).2 (by simp_all)⟩
  all_goals exact ⟨packXYN_of_function hg ‹_›, rfl⟩

/-- Group E: a function code of w[7:0] names the instruction, any other is Unknown (30_encoding.md R88). -/
theorem soundDecode_groupE (hg : (fieldG w).toNat = 0xE) : SoundDecode w (decodeGroupE w) := by
  unfold decodeGroupE
  split
  case h_3 => exact ⟨rfl, (unknownWord_iff_fields w).2 (by simp_all)⟩
  all_goals exact ⟨packXNN_of_function hg ‹_›, rfl⟩

/-- Group F: a function code of w[7:0] names the instruction, any other is Unknown (30_encoding.md R89). -/
theorem soundDecode_groupF (hg : (fieldG w).toNat = 0xF) : SoundDecode w (decodeGroupF w) := by
  unfold decodeGroupF
  split
  case h_10 => exact ⟨rfl, (unknownWord_iff_fields w).2 (by simp_all)⟩
  all_goals exact ⟨packXNN_of_function hg ‹_›, rfl⟩

/-- Groups 5 and 9: the instruction of the function code 0, or Unknown (30_encoding.md R86). -/
theorem soundDecode_functionZero {i : Instr} (hi : fieldN w = 0#4 → encode i = w ∧ i.wellFormed = true)
    (hg : (fieldG w).toNat = 0x5 ∨ (fieldG w).toNat = 0x9) :
    SoundDecode w (if fieldN w = 0#4 then .ok i else .error (.unknown w)) := by
  split_ifs with hn
  · exact hi hn
  · refine ⟨rfl, (unknownWord_iff_fields w).2 ?_⟩
    rcases hg with hg | hg <;> simp [hg, hn]

/-- The sixteen groups in the decoder's order: case h_1 is group 0, case h_16 group F. -/
theorem soundDecode_decodeWord (w : Word) : SoundDecode w (decodeWord w) := by
  unfold decodeWord
  split <;> rename_i hg
  case h_1 => exact soundDecode_group0 hg
  case h_6 | h_10 =>
    exact soundDecode_functionZero (fun hn => ⟨packXYN_of_function hg (congrArg _ hn), rfl⟩) (by simp [hg])
  case h_9 => exact soundDecode_group8 hg
  case h_15 => exact soundDecode_groupE hg
  case h_16 => exact soundDecode_groupF (by simp only [imp_false] at *; omega)
  case h_2 | h_3 | h_11 | h_12 => exact ⟨packAddr_of_group hg, rfl⟩
  case h_4 | h_5 | h_7 | h_8 | h_13 => exact ⟨packXNN_of_group hg, rfl⟩
  case h_14 => exact ⟨packXYN_of_group hg, rfl⟩

end

/-- Settles O48: the sound answer, where the decoder gives an instruction. -/
theorem decodedWordsEncodeBack : Obligations.DecodedWordsEncodeBack := by
  intro w i h
  have sound := soundDecode_decodeWord w
  rwa [h] at sound

/-! ### The Unknown words -/

/-- Among the words of instructions, those of SYS are the Unknown ones: every other one has a group without Unknown
words, or a function code that its group defines. -/
theorem unknownWord_encode_iff {i : Instr} (hi : i.wellFormed = true) :
    Machine.UnknownWord (encode i).toNat ↔ ∃ nnn, i = .sys nnn := by
  rw [unknownWord_iff_fields]
  cases i with
  | cls | ret => decide
  | sys nnn =>
    simp [encode, packAddr_zero_ne hi]
  | _ => simp [encode]

/-- Settles O49: an answer without an instruction names an Unknown word, and an instruction's word is Unknown when it is
SYS. -/
theorem unknownWordsAreExactlyTheListed : Obligations.UnknownWordsAreExactlyTheListed := by
  intro w
  cases h : decodeWord w with
  | error e =>
    have sound := soundDecode_decodeWord w
    rw [h] at sound
    obtain ⟨rfl, unknown⟩ := sound
    simpa using unknown
  | ok i =>
    obtain ⟨rfl, hi⟩ := decodedWordsEncodeBack w i h
    simpa using unknownWord_encode_iff hi

/-- Settles O2: the decoder evaluates on each of the seventeen words. -/
theorem sampleWordsDecodeAsTabled : Obligations.SampleWordsDecodeAsTabled := by
  unfold Obligations.SampleWordsDecodeAsTabled
  decide

end Sys2Proof

namespace Sys2Proof.Machine

/-! ### The step of a decodable word -/

/-- Settles O3: the step at a fetched instruction, and the frame of the step entry. -/
theorem stepRunsTheDecodedInstruction : Obligations.StepRunsTheDecodedInstruction := fun s i hi =>
  ⟨step_of_fetches hi, (decodedWordsEncodeBack _ i hi.2).2, rfl, rfl,
    (OnlyChanges.refl _ s).beginStep (.inl rfl) (.inr rfl)⟩

/-! ### No instruction is refused -/

section
variable (s : State) (r : Refusal)

theorem unknownOpcode_ne_refused (w : Word) : unknownOpcode w s ≠ .refused r := by
  unfold unknownOpcode
  split <;> nofun

theorem State.checkData_ne_refused (w : Word) (n : Nat) (t : State) : s.checkData w n (.next t) ≠ .refused r := by
  unfold State.checkData
  split <;> nofun

theorem skipOnKey_ne_refused (x : Reg) (pressed : Bool) (w : Word) : skipOnKey x pressed w s ≠ .refused r := by
  unfold skipOnKey
  split <;> nofun

/-- Every instruction has an effect or a fault. -/
theorem exec_ne_refused (i : Instr) : exec i s ≠ .refused r := by
  cases i with
  | sys => exact unknownOpcode_ne_refused s r _
  | skp | sknp => exact skipOnKey_ne_refused s r _ _ _
  | drw | ldB | ldMemVx | ldVxMem => exact s.checkData_ne_refused r _ _ _
  | call | ret | ldVxK =>
    simp only [exec, execCall, execRet, execLdVxK]
    split <;> nofun
  | _ => nofun

end

/-- Settles O39: a step is a fetch fault, an instruction or the unknown-opcode path. -/
theorem noStepIsRefused : Obligations.NoStepIsRefused := by
  intro s r
  unfold step
  split
  · nofun
  · split
    · exact exec_ne_refused _ r _
    · exact unknownOpcode_ne_refused _ r _

end Sys2Proof.Machine

namespace Sys2Proof.Machine

/-! ### When the stack operations and SYS complete -/

section
variable {s : State}

theorem exec_call_of_room (nnn : Addr12) (room : s.sp.val < 16) :
    exec (.call nnn) s = .next ((s.pushPc room).jumpTo (addrOperand nnn)) := dif_pos room

theorem exec_call_of_full (nnn : Addr12) (full : s.sp.val = 16) :
    exec (.call nnn) s = .fault (.stackOverflow s.pc (encode (.call nnn))) := dif_neg (by omega)

theorem exec_ret_of_pos (hpos : 0 < s.sp.val) : exec .ret s = .next (s.popPc hpos) := dif_pos hpos

theorem exec_ret_of_empty (empty : s.sp.val = 0) : exec .ret s = .fault (.stackUnderflow s.pc 0x00EE) :=
  dif_neg (by omega)

theorem exec_sys_of_nonfatal (nnn : Addr12) (nonfatal : s.params.unknownOpcodeFatal = false) :
    exec (.sys nnn) s = .next { s with report := some ⟨s.pc, encode (.sys nnn)⟩, pc := s.pc + 2 } :=
  if_neg (by simp [nonfatal])

theorem exec_sys_of_fatal (nnn : Addr12) (fatal : s.params.unknownOpcodeFatal = true) :
    exec (.sys nnn) s = .fault (.unknownOpcode s.pc (encode (.sys nnn))) := if_pos fatal

/-- The slot a push fills is the one at the old sp. -/
theorem stack_pushPc_top (room : s.sp.val < 16) {k : Fin 16} (hk : k.val = s.sp.val) :
    (s.pushPc room).stack[k] = s.pc := by
  simp [hk]

/-- A pop reads the slot below sp. -/
theorem popPc_pc_of_top (hpos : 0 < s.sp.val) {k : Fin 16} (hk : k.val + 1 = s.sp.val) :
    (s.popPc hpos).pc = s.stack[k] + 2 := by
  simp [← hk]

/-! ### The steps that fault -/

theorem step_of_not_fetchable (h : ¬ s.Fetchable) :
    step s = .fault (.addressing (max s.pc.toNat memSize) s.pc none) := by
  unfold step
  rw [State.fetch_beginStep, State.fetch_of_not_fetchable h]

/-- 60_exceptions.md R203: a faulting step leaves the state but for the clearing at its entry. -/
theorem onlyChanges_of_step_fault {f : Fault} (h : step s = .fault f) :
    OnlyChanges (fun p => p = .redraw ∨ p = .report) s (transact .step s).2 := by
  rw [transact_step_fault h]
  exact (OnlyChanges.refl _ s).beginStep (.inl rfl) (.inr rfl)

end

/-! ### Calls and returns -/

/-- Settles O11: the pop reads the slot that the push filled, and sp comes back by the two moves of one. -/
theorem returnAfterCallRestoresTheStack : Obligations.ReturnAfterCallRestoresTheStack := by
  refine ⟨fun nnn s t h => ?_, fun s k inv hk => ?_⟩
  · obtain ⟨room, ht⟩ := exec_call_next h
    have pushed : t.sp.val = s.sp.val + 1 := by rw [ht]; rfl
    have hpos : 0 < t.sp.val := by omega
    have slot : t.stack[(⟨s.sp.val, room⟩ : Fin 16)] = s.pc := by
      rw [ht]
      exact stack_pushPc_top room rfl
    have frame : OnlyChanges (fun p => p = .sp ∨ p = .pc ∨ ∃ k : Fin 16, k.val = s.sp.val ∧ p = .slot k) s t := by
      rw [ht]
      exact ((OnlyChanges.refl _ s).pushPc (.inr (.inr ⟨_, rfl, rfl⟩)) (.inl rfl)).jumpTo (.inr (.inl rfl))
    refine ⟨_, exec_ret_of_pos hpos, ?_, fun p hp => ?_⟩
    · rw [popPc_pc_of_top hpos (k := ⟨s.sp.val, room⟩) pushed.symm, slot]
    · by_cases hsp : p = .sp
      · rw [hsp]
        exact Fin.ext (Nat.sub_eq_of_eq_add pushed)
      · exact frame.popPc (.inl rfl) (.inr (.inl rfl)) p (not_or.2 ⟨hsp, hp⟩)
  · have hpos : 0 < s.sp.val := by omega
    have saved : s.stack[k].toNat ≤ 0xFFE := inv.savedBound k (by omega)
    have exact_sum : (s.stack[k] + 2).toNat = s.stack[k].toNat + 2 :=
      BitVec.toNat_add_of_lt (show s.stack[k].toNat + 2 < 65536 by omega)
    refine ⟨_, exec_ret_of_pos hpos, ?_⟩
    rw [popPc_pc_of_top hpos hk]
    omega

/-- Settles O9: CALL by the two cases of its guard; the faulting step runs it at the step entry, where sp is the same. -/
theorem callPushesPcAndJumps : Obligations.CallPushesPcAndJumps := by
  refine fun nnn s => ⟨fun room => ?_, fun full => ?_⟩
  · refine ⟨_, exec_call_of_room nnn room, addrOperand_toNat nnn, rfl, fun k => stack_pushPc_top room, ?_⟩
    exact ((OnlyChanges.refl _ s).pushPc (.inr (.inr ⟨_, rfl, rfl⟩)) (.inr (.inl rfl))).jumpTo (.inl rfl)
  · refine ⟨encode (.call nnn), packAddr_toNat 0x2 nnn, exec_call_of_full nnn full, fun hi => ?_⟩
    have faults : exec (.call nnn) s.beginStep = _ := exec_call_of_full nnn full
    exact onlyChanges_of_step_fault ((step_of_fetches hi).trans faults)

/-- Settles O10: RET by the two cases of its guard; the faulting step runs it at the step entry, where sp is the same. -/
theorem retPopsAndResumesAfterTheCall : Obligations.RetPopsAndResumesAfterTheCall := by
  refine fun s => ⟨fun hpos => ?_, fun empty => ?_⟩
  · refine ⟨_, exec_ret_of_pos hpos, Nat.sub_add_cancel hpos, fun k => popPc_pc_of_top hpos, ?_⟩
    exact (OnlyChanges.refl _ s).popPc (.inr rfl) (.inl rfl)
  · refine ⟨exec_ret_of_empty empty, fun hi => ?_⟩
    have faults : exec .ret s.beginStep = _ := exec_ret_of_empty empty
    exact onlyChanges_of_step_fault ((step_of_fetches hi).trans faults)

/-! ### SYS and the jumps -/

/-- Settles O7: SYS by the two values of UNKNOWN_OPCODE_FATAL; its word has group 0. -/
theorem sysTakesTheUnknownOpcodePath : Obligations.SysTakesTheUnknownOpcodePath := by
  intro nnn s
  have word : (encode (.sys nnn)).toNat = nnn.toNat := (packAddr_toNat 0x0 nnn).trans (by simp)
  refine ⟨encode (.sys nnn), word, fun nonfatal => ?_, exec_sys_of_fatal nnn⟩
  exact ⟨_, exec_sys_of_nonfatal nnn nonfatal, rfl, rfl,
    (OnlyChanges.refl _ s).reportAndJump (.inr rfl) (.inl rfl)⟩

/-- Settles O8: the target is NNN as a number; at 0xFFF the second byte of the next fetch lies outside memory. -/
theorem jpSetsOnlyPc : Obligations.JpSetsOnlyPc := by
  intro nnn s
  have target : (addrOperand nnn).toNat = nnn.toNat := addrOperand_toNat nnn
  refine ⟨s.jumpTo (addrOperand nnn), rfl, target, (OnlyChanges.refl _ s).jumpTo rfl, fun last => ?_, fun self => ?_⟩
  · have pc : addrOperand nnn = 0xFFF := BitVec.eq_of_toNat_eq (target.trans last)
    have outside : ¬ (s.jumpTo 0xFFF).Fetchable := by simp [State.Fetchable, memSize]
    rw [pc]
    exact step_of_not_fetchable outside
  · rw [BitVec.eq_of_toNat_eq (target.trans self)]
    rfl

/-- Settles O14: `jumpV0Target_toNat` gives the exact sum, and the two fields bound it. -/
theorem jpV0AddsV0Exactly : Obligations.JpV0AddsV0Exactly := by
  intro nnn s
  have sum : (s.jumpV0Target nnn).toNat = nnn.toNat + (s.reg 0).toNat := jumpV0Target_toNat s nnn
  have bound : nnn.toNat + (s.reg 0).toNat ≤ 0x10FE := by
    have := nnn.isLt
    have := (s.reg 0).isLt
    omega
  exact ⟨_, rfl, sum, sum.trans_le bound, (OnlyChanges.refl _ s).jumpTo rfl⟩

/-! ### The skips -/

section
variable (s : State) (a b : Byte)

theorem skipIf_beq_pc : (s.skipIf (a == b)).pc = if a.toNat = b.toNat then s.pc + 4 else s.pc + 2 := by
  simp [BitVec.toNat_inj]

theorem skipIf_bne_pc : (s.skipIf (a != b)).pc = if a.toNat = b.toNat then s.pc + 2 else s.pc + 4 := by
  by_cases h : a = b <;> simp [h, BitVec.toNat_inj]

end

/-- Settles O12: both skips by `State.skipIf`, which reads only pc and the condition. -/
theorem immediateSkipsMoveOnlyPc : Obligations.ImmediateSkipsMoveOnlyPc := fun x nn s _ =>
  ⟨⟨_, rfl, rfl, skipIf_beq_pc s (s.reg x) nn, (OnlyChanges.refl _ s).skipIf rfl⟩,
    ⟨_, rfl, rfl, skipIf_bne_pc s (s.reg x) nn, (OnlyChanges.refl _ s).skipIf rfl⟩⟩

/-- Settles O13: both skips by `State.skipIf`; with X = Y the two operands are one. -/
theorem registerSkipsMoveOnlyPc : Obligations.RegisterSkipsMoveOnlyPc := by
  intro x y s
  have eq_pc := skipIf_beq_pc s (s.reg x) (s.reg y)
  have ne_pc := skipIf_bne_pc s (s.reg x) (s.reg y)
  refine ⟨⟨_, rfl, eq_pc, fun same => ?_, (OnlyChanges.refl _ s).skipIf rfl⟩,
    ⟨_, rfl, ne_pc, fun same => ?_, (OnlyChanges.refl _ s).skipIf rfl⟩⟩
  · exact eq_pc.trans (if_pos (by rw [same]))
  · exact ne_pc.trans (if_pos (by rw [same]))

end Sys2Proof.Machine

namespace Sys2Proof.Machine

/-! ### Result and flag of the register arithmetic, as numbers -/

theorem carryFlag_toNat (a b : Byte) : (carryFlag a b).toNat = if 0xFF < a.toNat + b.toNat then 1 else 0 := by
  simp [carryFlag, flagByte_toNat]

theorem notBorrowFlag_toNat (minuend subtrahend : Byte) :
    (notBorrowFlag minuend subtrahend).toNat = if subtrahend.toNat ≤ minuend.toNat then 1 else 0 := by
  simp [notBorrowFlag, flagByte_toNat]

theorem shiftRightFlag_toNat (v : Byte) : (shiftRightFlag v).toNat = v.toNat % 2 :=
  (BitVec.toNat_and v 1).trans (Nat.and_one_is_mod _)

theorem shiftLeftFlag_toNat (v : Byte) : (shiftLeftFlag v).toNat = v.toNat / 128 := by
  simp [shiftLeftFlag, Nat.shiftRight_eq_div_pow]

theorem byte_sub_toNat (a b : Byte) : (a - b).toNat = (256 + a.toNat - b.toNat) % 256 := by
  have := b.isLt
  rw [BitVec.toNat_sub]
  omega

theorem byte_shiftRight_one_toNat (v : Byte) : (v >>> 1).toNat = v.toNat / 2 := by
  simp [Nat.shiftRight_eq_div_pow]

theorem byte_shiftLeft_one_toNat (v : Byte) : (v <<< 1).toNat = v.toNat * 2 % 256 := by
  simp [Nat.shiftLeft_eq]

/-! ### What an instruction with a result, or with a result and a flag, leaves -/

theorem reg_setReg_advance_same (s : State) (x : Reg) (b : Byte) : (s.setReg x b).advance.reg x = b := by simp

/-- 42_alu.md R130: with X = F the two writes meet in VF, and the one that VF_WRITE_ORDER puts last survives. -/
theorem hasResultAndFlag_setResultAndFlag (s : State) (x : Reg) (a b : Byte) :
    (s.setResultAndFlag x a b).HasResultAndFlag s.params.vfWriteOrder x a.toNat b.toNat := by
  refine ⟨fun hx => ?_, fun hx => ?_⟩
  · simp [State.reg_setResultAndFlag, hx]
  · subst hx
    rw [State.reg_setResultAndFlag]
    cases s.params.vfWriteOrder <;> simp

/-- An instruction that ends in `State.setResultAndFlag`: its result and flag as numbers, its pc and its frame. -/
theorem exec_resultAndFlag {i : Instr} {s : State} {x : Reg} {a b : Byte} {result flag : Nat}
    (h : exec i s = .next (s.setResultAndFlag x a b).advance) (ha : a.toNat = result) (hb : b.toNat = flag) :
    ∃ t, exec i s = .next t ∧ t.HasResultAndFlag s.params.vfWriteOrder x result flag ∧ t.pc = s.pc + 2 ∧
      OnlyChanges (fun p => p = .reg x ∨ p = .reg vf ∨ p = .pc) s t := by
  subst ha hb
  refine ⟨_, h, hasResultAndFlag_setResultAndFlag s x a b, ?_, onlyChanges_setResultAndFlag_advance s x a b⟩
  simp

/-! ### The obligations of 42_alu.md -/

/-- Settles O15: both loads are one register write and the advance. -/
theorem registerLoadsSetOnlyTheDestination : Obligations.RegisterLoadsSetOnlyTheDestination :=
  ⟨fun x y s => ⟨_, rfl, reg_setReg_advance_same s x (s.reg y), rfl, onlyChanges_setReg_advance s x _⟩,
    fun x nn s => ⟨_, rfl, reg_setReg_advance_same s x nn, rfl, onlyChanges_setReg_advance s x _⟩⟩

/-- Settles O16: each is one register write of the bitwise result, so VF changes only as the destination. -/
theorem logicOpsAreBitwiseAndLeaveVf : Obligations.LogicOpsAreBitwiseAndLeaveVf := by
  intro x y s
  refine ⟨⟨_, rfl, fun k => ?_, rfl, onlyChanges_setReg_advance s x _⟩,
    ⟨_, rfl, fun k => ?_, rfl, onlyChanges_setReg_advance s x _⟩,
    ⟨_, rfl, fun k => ?_, rfl, onlyChanges_setReg_advance s x _⟩⟩
  · rw [reg_setReg_advance_same, BitVec.getLsbD_or]
  · rw [reg_setReg_advance_same, BitVec.getLsbD_and]
  · rw [reg_setReg_advance_same, BitVec.getLsbD_xor]

/-- Settles O17: the result and the flag are both computed from the old operands. -/
theorem addWrapsAndSetsCarry : Obligations.AddWrapsAndSetsCarry := fun x y s =>
  exec_resultAndFlag rfl (BitVec.toNat_add (s.reg x) (s.reg y)) (carryFlag_toNat (s.reg x) (s.reg y))

/-- Settles O18: SUBN is SUB's result and flag with the operands exchanged. -/
theorem subtractionsWrapAndSetNotBorrow : Obligations.SubtractionsWrapAndSetNotBorrow := fun x y s =>
  ⟨exec_resultAndFlag rfl (byte_sub_toNat (s.reg x) (s.reg y)) (notBorrowFlag_toNat (s.reg x) (s.reg y)),
    exec_resultAndFlag rfl (byte_sub_toNat (s.reg y) (s.reg x)) (notBorrowFlag_toNat (s.reg y) (s.reg x))⟩

/-- Settles O19: both shifts move the operand that SHIFT_SOURCE names, `shiftOperand_toNat`. -/
theorem shiftsMoveOneBitIntoVf : Obligations.ShiftsMoveOneBitIntoVf := by
  intro x y s
  rw [← shiftOperand_toNat]
  exact ⟨exec_resultAndFlag rfl (byte_shiftRight_one_toNat _) (shiftRightFlag_toNat _),
    exec_resultAndFlag rfl (byte_shiftLeft_one_toNat _) (shiftLeftFlag_toNat _)⟩

/-- Settles O20: one register write, so VF is written only where it is the destination. -/
theorem immediateAddWrapsWithoutFlag : Obligations.ImmediateAddWrapsWithoutFlag := by
  intro x nn s
  refine ⟨_, rfl, ?_, fun hx => ?_, rfl, onlyChanges_setReg_advance s x _⟩
  · rw [reg_setReg_advance_same, BitVec.toNat_add]
  · rw [State.reg_advance, State.reg_setReg, if_neg hx]

end Sys2Proof.Machine

namespace Sys2Proof.Machine

/-! ### The values that reach I and the index flag, as numbers -/

theorem glyphAddress_toNat (v : Byte) : (glyphAddress v).toNat = 5 * (v.toNat % 16) := by
  have low : (v &&& 0x0F).toNat = v.toNat % 16 := (BitVec.toNat_and v 0x0F).trans (Nat.and_two_pow_sub_one_eq_mod _ 4)
  rw [glyphAddress, BitVec.toNat_mul, BitVec.toNat_setWidth_of_le (by decide), low]
  exact Nat.mod_eq_of_lt (show 5 * (v.toNat % 16) < 65536 by omega)

theorem word_add_byte_toNat (i : Word) (v : Byte) : (i + v.setWidth 16).toNat = (i.toNat + v.toNat) % 65536 := by
  rw [BitVec.toNat_add, BitVec.toNat_setWidth_of_le (by decide)]

theorem indexOverflowFlag_toNat (limit : Nat) (i : Word) (v : Byte) :
    (indexOverflowFlag limit i v).toNat = if limit < i.toNat + v.toNat then 1 else 0 := by
  simp [indexOverflowFlag, flagByte_toNat]

/-! ### What the index flag writes -/

theorem State.reg_vf_setIndexFlag_toNat {s : State} {limit : Nat} (h : s.params.addiOverflowLimit = some limit)
    (i : Word) (v : Byte) : ((s.setIndexFlag i v).reg vf).toNat = if limit < i.toNat + v.toNat then 1 else 0 := by
  rw [State.reg_setIndexFlag, h]
  exact indexOverflowFlag_toNat limit i v

/-- The frame of the index flag where VF may be written only when ADDI_OVERFLOW_LIMIT is a number (R151). -/
theorem OnlyChanges.setIndexFlag_of_limit {W : Part → Prop} {s t : State} (h : OnlyChanges W s t) {i : Word} {v : Byte}
    (hf : t.params.addiOverflowLimit ≠ none → W (.reg vf)) : OnlyChanges W s (t.setIndexFlag i v) := by
  by_cases limit : t.params.addiOverflowLimit = none
  · simpa only [State.setIndexFlag, limit] using h
  · exact h.setIndexFlag (hf limit)

/-! ### The obligations of 43_index_random.md -/

/-- Settles O21: both loads are one write of I and the advance. -/
theorem indexLoadsSetOnlyI : Obligations.IndexLoadsSetOnlyI :=
  ⟨fun nnn s => ⟨_, rfl, addrOperand_toNat nnn, rfl, ((OnlyChanges.refl _ s).setIndex (.inl rfl)).advance (.inr rfl)⟩,
    fun x s => ⟨_, rfl, glyphAddress_toNat (s.reg x), rfl,
      ((OnlyChanges.refl _ s).setIndex (.inl rfl)).advance (.inr rfl)⟩⟩

/-- Settles O22: the flag comes from the old I and Vx, and the frame has VF only where the limit is a number. -/
theorem indexAddWrapsAndSetsOverflow : Obligations.IndexAddWrapsAndSetsOverflow := by
  intro x s
  refine ⟨_, rfl, ?_, fun limit hlimit => ?_, by simp, ?_⟩
  · rw [State.advance_i, State.setIndexFlag_i, word_add_byte_toNat]
  · exact State.reg_vf_setIndexFlag_toNat (s := { s with i := s.i + (s.reg x).setWidth 16 }) hlimit s.i (s.reg x)
  · exact (((OnlyChanges.refl _ s).setIndex (.inl rfl)).setIndexFlag_of_limit
      fun limit => .inr (.inr ⟨limit, rfl⟩)).advance (.inr (.inl rfl))

/-- Settles O23: the result is the draw at the old counter masked by NN, so NN = 0 hides the draw. -/
theorem rndMasksAFreshDraw : Obligations.RndMasksAFreshDraw := by
  intro x nn s
  have masked := reg_setReg_advance_same { s with draws := s.draws + 1 } x (Config.rand s.draws &&& nn)
  refine ⟨_, rfl, fun b => ?_, fun zero => ?_, rfl, rfl, ?_⟩
  · rw [masked, BitVec.getLsbD_and]
  · rw [masked, zero]
    exact BitVec.and_zero
  · exact (((OnlyChanges.refl _ s).countDraw (.inr (.inr rfl))).setReg (.inl rfl)).advance (.inr (.inl rfl))

end Sys2Proof.Machine

namespace Sys2Proof.Machine

/-! ### The sprite of a draw -/

section
variable {s t : State} {x y : Reg} {n : Nibble}

/-- A sprite has at most 15 rows, so its loop meets no cell twice (44_display.md R161). -/
theorem State.nodup_sprite (s : State) (x y : Reg) (n : Nibble) :
    (spritePixels (s.reg x) (s.reg y) 0 (s.dataBytes n.toNat)).Nodup :=
  nodup_spritePixels _ _ _ _ (by have := n.isLt; rw [State.dataBytes, Memory.length_readBytes]; omega)

theorem State.get_drawSprite_of_covers {p : Pixel} (h : s.Covers x y n p) :
    (s.drawSprite x y n.toNat).1.get p = !s.fb.get p := by
  rw [State.drawSprite, (drawPixels_of_nodup _ _ (s.nodup_sprite x y n)).1,
    if_pos ((mem_sprite_iff_covers s x y n p).2 h)]

theorem State.drawSprite_collides_iff :
    (s.drawSprite x y n.toNat).2 = true ↔ ∃ p, s.Covers x y n p ∧ s.fb.get p = true := by
  rw [State.drawSprite, (drawPixels_of_nodup _ _ (s.nodup_sprite x y n)).2]
  exact exists_congr fun p => and_congr_left' (mem_sprite_iff_covers s x y n p)

/-- What a sprite covers depends on memory, I and the two origin registers only. -/
theorem State.covers_congr (hmem : t.mem = s.mem) (hi : t.i = s.i) (hx : t.reg x = s.reg x)
    (hy : t.reg y = s.reg y) (p : Pixel) : t.Covers x y n p ↔ s.Covers x y n p := by
  unfold State.Covers
  rw [hmem, hi, hx, hy]

theorem flagByte_eq_one_iff (c : Bool) : flagByte c = 1 ↔ c = true := by cases c <;> decide

theorem flagByte_eq_zero_iff (c : Bool) : flagByte c = 0 ↔ c = false := by cases c <;> decide

/-! ### When DRW completes, and what it then leaves -/

theorem exec_drw_completes (inside : n.toNat = 0 ∨ s.i.toNat + n.toNat ≤ memSize) :
    ∃ t, exec (.drw x y n) s = .next t := by
  rw [exec, execDrw, State.checkData_eq, if_pos inside]
  exact ⟨_, rfl⟩

theorem exec_drw_vf (h : exec (.drw x y n) s = .next t) :
    t.reg vf = flagByte (s.drawSprite x y n.toNat).2 := by
  obtain ⟨-, rfl⟩ := exec_drw_next h
  simp

/-- VF is 1 exactly when a covered cell was set before the draw. -/
theorem exec_drw_vf_eq_one_iff (h : exec (.drw x y n) s = .next t) :
    t.reg vf = 1 ↔ ∃ p, s.Covers x y n p ∧ s.fb.get p = true := by
  rw [exec_drw_vf h, flagByte_eq_one_iff, State.drawSprite_collides_iff]

theorem exec_drw_vf_eq_zero_iff (h : exec (.drw x y n) s = .next t) :
    t.reg vf = 0 ↔ ¬ ∃ p, s.Covers x y n p ∧ s.fb.get p = true := by
  rw [exec_drw_vf h, flagByte_eq_zero_iff, ← State.drawSprite_collides_iff, Bool.not_eq_true]

theorem exec_drw_get_of_covers (h : exec (.drw x y n) s = .next t) {p : Pixel} (hp : s.Covers x y n p) :
    t.fb.get p = !s.fb.get p := by
  obtain ⟨-, rfl⟩ := exec_drw_next h
  exact State.get_drawSprite_of_covers hp

theorem exec_drw_get_of_not_covers (h : exec (.drw x y n) s = .next t) {p : Pixel} (hp : ¬ s.Covers x y n p) :
    t.fb.get p = s.fb.get p := by
  obtain ⟨-, rfl⟩ := exec_drw_next h
  exact State.get_drawSprite_of_not_covers hp

end

/-! ### The obligations of 44_display.md -/

/-- Settles O25: the loop meets every covered cell once, so it flips exactly these and collides on one that was set. -/
theorem drwXorsTheSpriteAndSetsCollision : Obligations.DrwXorsTheSpriteAndSetsCollision := by
  intro x y n s inside
  obtain ⟨t, h⟩ := exec_drw_completes (x := x) (y := y) (inside.imp_left (congrArg BitVec.toNat))
  refine ⟨t, h, fun p => exec_drw_get_of_covers h, fun p => exec_drw_get_of_not_covers h,
    (exec_drw_vf_eq_one_iff h).2, (exec_drw_vf_eq_zero_iff h).2, ?_⟩
  obtain ⟨-, rfl⟩ := exec_drw_next h
  refine ⟨rfl, rfl, (((OnlyChanges.refl _ s).draw (fun p hp => ?_) ?_).setReg ?_).advance ?_⟩
  · exact State.get_drawSprite_of_not_covers fun hc => hp (.inl ⟨p, hc, rfl⟩)
  · exact .inr (.inr (.inl rfl))
  · exact .inr (.inl rfl)
  · exact .inr (.inr (.inr rfl))

/-- Settles O26: the second draw covers the same cells, so it flips each back, and it collides where the first one left a
cell set, which was 0 before. -/
theorem drawingTwiceRestoresTheFramebuffer : Obligations.DrawingTwiceRestoresTheFramebuffer := by
  intro x y n s t h hx hy
  obtain ⟨inside, ht⟩ := exec_drw_next h
  have hi : t.i = s.i := by rw [ht]; rfl
  have hmem : t.mem = s.mem := by rw [ht]; rfl
  have same := State.covers_congr (n := n) hmem hi hx hy
  obtain ⟨u, hu⟩ := exec_drw_completes (s := t) (x := x) (y := y) (hi ▸ inside)
  refine ⟨u, hu, fun p => ?_, exec_drw_vf_eq_one_iff h, ?_⟩
  · by_cases hp : s.Covers x y n p
    · rw [exec_drw_get_of_covers hu ((same p).2 hp), exec_drw_get_of_covers h hp, Bool.not_not]
    · rw [exec_drw_get_of_not_covers hu (mt (same p).1 hp), exec_drw_get_of_not_covers h hp]
  · rw [exec_drw_vf_eq_one_iff hu]
    refine exists_congr fun p => (and_congr_left' (same p)).trans (and_congr_right fun hp => ?_)
    rw [exec_drw_get_of_covers h hp, Bool.not_eq_true']

/-- Settles O24: CLS replaces the grid by the cleared one and sets redraw. -/
theorem clsClearsTheFramebuffer : Obligations.ClsClearsTheFramebuffer := fun s =>
  ⟨_, rfl, Frame.get_clear, rfl, rfl,
    ((OnlyChanges.refl _ s).draw (fun p hp => absurd (.inl ⟨p, rfl⟩) hp) (.inr (.inl rfl))).advance
      (.inr (.inr rfl))⟩

end Sys2Proof.Machine

namespace Sys2Proof.Machine

/-! ### When the key skips and the key read complete -/

section
variable {s : State} {x : Reg} {k : Fin 16}

theorem skipOnKey_of_key (named : keyIndex s.params.keyIndexPolicy (s.reg x) = some k) (pressed : Bool) (w : Word) :
    skipOnKey x pressed w s = .next (s.skipIf (s.key[k] == pressed)) := by
  rw [skipOnKey, named]

theorem skipOnKey_of_no_key (unnamed : keyIndex s.params.keyIndexPolicy (s.reg x) = none) (pressed : Bool) (w : Word) :
    skipOnKey x pressed w s = .fault (.keyIndex s.pc w (s.reg x)) := by
  rw [skipOnKey, unnamed]

theorem keyIndex_fault_of_above {v : Byte} (above : 0x0F < v.toNat) : keyIndex .fault v = none := by
  have : ¬ (v.toNat < 16 ∨ KeyIndexPolicy.fault = .lowNibble) := by
    simp only [reduceCtorEq, or_false]
    omega
  rw [keyIndex_eq, if_neg this]

theorem exec_ldVxK_of_key (pressed : s.firstKey = some k.val) :
    exec (.ldVxK x) s = .next (s.setReg x (BitVec.ofNat 8 k.val)).advance := by
  rw [exec, execLdVxK, pressed]

theorem exec_ldVxK_of_no_key (released : s.firstKey = none) : exec (.ldVxK x) s = .next s := by
  rw [exec, execLdVxK, released]

end

/-! ### The obligations of 45_keypad.md -/

/-- Settles O28: the register names the tested key exactly when `keyIndex` finds it (`testsKey_iff`), and the two skips
compare its flag with true and with false. -/
theorem keySkipsTestTheNamedKey : Obligations.KeySkipsTestTheNamedKey := by
  intro x s k tests
  have named := (testsKey_iff s x k).1 tests
  refine ⟨⟨_, skipOnKey_of_key named true _, ?_, (OnlyChanges.refl _ s).skipIf rfl⟩,
    ⟨_, skipOnKey_of_key named false _, ?_, (OnlyChanges.refl _ s).skipIf rfl⟩⟩
  · rw [State.skipIf_pc, beq_true]
  · rw [State.skipIf_pc]
    cases s.key[k] <;> rfl

/-- Settles O29: above 0x0F the policy fault names no key, and the fault records the word that `encode` packs. -/
theorem keyIndexAboveFifteenFaults : Obligations.KeyIndexAboveFifteenFaults := by
  intro x s policy above
  have unnamed : keyIndex s.params.keyIndexPolicy (s.reg x) = none := by
    rw [policy]
    exact keyIndex_fault_of_above above
  have word (nn : Byte) : (packXNN 0xE x nn).toNat = 0xE000 + nn.toNat + x.val * 256 := by
    rw [packXNN_toNat, Nat.add_right_comm]
    rfl
  exact ⟨⟨_, word 0x9E, skipOnKey_of_no_key unnamed true _⟩, ⟨_, word 0xA1, skipOnKey_of_no_key unnamed false _⟩⟩

/-- Settles O30: the key scan finds the lowest pressed key, which fits in a byte, or none. -/
theorem keyReadTakesTheLowestKeyOrWaits : Obligations.KeyReadTakesTheLowestKeyOrWaits := by
  intro x s
  refine ⟨fun k pressed lowest => ?_, fun released => exec_ldVxK_of_no_key (s.firstKey_eq_none.2 released)⟩
  have found : s.firstKey = some k.val :=
    (s.firstKey_eq_some k).2 ⟨k.isLt, pressed, fun j hj => lowest ⟨j, hj.trans k.isLt⟩ hj⟩
  refine ⟨_, exec_ldVxK_of_key found, ?_, rfl, onlyChanges_setReg_advance s x _⟩
  rw [reg_setReg_advance_same]
  exact Nat.mod_eq_of_lt (k.isLt.trans (by decide))

end Sys2Proof.Machine

namespace Sys2Proof.Machine

/-! ### When a checked data access completes -/

section
variable {s : State} {x : Reg} {a n : Nat}

theorem State.checkData_of_inside {access : Result} (inside : s.i.toNat + n ≤ memSize) (w : Word) :
    s.checkData w n access = access := by
  rw [State.checkData_eq, if_pos (.inr inside)]

theorem State.checkData_of_outside {access : Result} (outside : LowestOutside s.i.toNat n a) (w : Word) :
    s.checkData w n access = .fault (.addressing a s.pc (some w)) := by
  rw [State.checkData, (lowestOutside_iff _ _ _).1 outside]

theorem exec_ldB_of_inside (inside : s.i.toNat + 3 ≤ memSize) :
    exec (.ldB x) s = .next (s.storeData (bcdDigits (s.reg x))).advance :=
  State.checkData_of_inside inside _

theorem exec_ldB_of_outside (outside : LowestOutside s.i.toNat 3 a) :
    exec (.ldB x) s = .fault (.addressing a s.pc (some (encode (.ldB x)))) :=
  State.checkData_of_outside outside _

theorem exec_ldMemVx_of_inside (inside : s.i.toNat + (x.val + 1) ≤ memSize) :
    exec (.ldMemVx x) s = .next ((s.storeData (s.regBlock x)).blockIndex x).advance :=
  State.checkData_of_inside inside _

theorem exec_ldVxMem_of_inside (inside : s.i.toNat + (x.val + 1) ≤ memSize) :
    exec (.ldVxMem x) s = .next ((s.setRegBlock (s.dataBytes (x.val + 1))).blockIndex x).advance :=
  State.checkData_of_inside inside _

/-! ### What a store or a block transfer leaves -/

/-- The frame of a store at I, with the stored bytes counted from I. -/
theorem OnlyChanges.storeData_offsets {W : Part → Prop} {t : State} (h : OnlyChanges W s t) {bytes : List Byte}
    (hb : ∀ k < bytes.length, W (.byte (t.i.toNat + k))) : OnlyChanges W s (t.storeData bytes) := by
  refine h.storeData fun a low high => ?_
  rw [← Nat.add_sub_cancel' low]
  exact hb _ (by omega)

theorem exec_ldB_read_of_digit {t : State} (h : exec (.ldB x) s = .next t) (hn : n < 256)
    (stored : s.StoresByte (.ldB x) a (BitVec.ofNat 8 n)) : (t.mem.read a).toNat = n :=
  (byte_eq_ofNat_iff hn).1 (exec_read_of_storesByte h stored)

/-- A block load reads x[k] for k up to X from memory at I + k. -/
theorem State.reg_setRegBlock_dataBytes {k : Reg} (hk : k ≤ x) :
    (s.setRegBlock (s.dataBytes (x.val + 1))).reg k = s.mem.read (s.i.toNat + k.val) := by
  rw [State.reg_setRegBlock, State.dataBytes, Memory.getD_readBytes, if_pos (Nat.lt_succ_of_le hk)]

/-- BLOCK_I_INCREMENT is applied to the old I, whatever the transfer moved. -/
theorem State.indexAfterBlock_blockIndex {u : State} (hi : u.i = s.i) (hp : u.params = s.params) :
    s.IndexAfterBlock (u.blockIndex x).advance x := by
  unfold State.IndexAfterBlock
  rw [State.advance_i, State.blockIndex_i, hi, hp]
  cases s.params.blockIIncrement with
  | none => rfl
  | xPlusOne => exact BitVec.toNat_ofNat _ 16

/-! ### The audio edge -/

/-- 60_exceptions.md R214: a tick at st = 1 signals the edge and leaves st = 0. -/
theorem transact_tick_of_st_one (h : s.st = 1) :
    (transact .tick s).1 = .ticked true ∧ (transact .tick s).2.st = 0 := by
  simp [transact, State.soundEdge, State.tick, h, countDown]

theorem transact_step_ne_ticked (s : State) (edge : Bool) : (transact .step s).1 ≠ .ticked edge := by
  rw [transact]
  cases step s <;> nofun

end

/-! ### The obligations of 46_timers_bcd_block.md -/

/-- Settles O33: the three stored digits are each below 256, so each byte holds its digit; outside memory the check comes
before the store, at the step entry too. -/
theorem bcdStoreWritesThreeDigits : Obligations.BcdStoreWritesThreeDigits := by
  refine fun x s => ⟨fun inside => ?_, fun a outside => ⟨exec_ldB_of_outside outside, fun hi => ?_⟩⟩
  · have h := exec_ldB_of_inside (x := x) inside
    have hv := (s.reg x).isLt
    refine ⟨_, h, exec_ldB_read_of_digit h (by omega) ?_, exec_ldB_read_of_digit h (by omega) ?_,
      exec_ldB_read_of_digit h (by omega) ?_, by omega, rfl, ?_⟩
    · exact storesByte_ldB_iff.2 (.inl ⟨rfl, rfl⟩)
    · exact storesByte_ldB_iff.2 (.inr (.inl ⟨rfl, rfl⟩))
    · exact storesByte_ldB_iff.2 (.inr (.inr ⟨rfl, rfl⟩))
    · exact ((OnlyChanges.refl _ s).storeData_offsets fun k hk => .inr ⟨k, hk, rfl⟩).advance (.inl rfl)
  · have faults : exec (.ldB x) s.beginStep = _ := exec_ldB_of_outside outside
    exact onlyChanges_of_step_fault ((step_of_fetches hi).trans faults)

/-- Settles O34: memory holds each byte that the instruction stores, and I moves after the store. -/
theorem blockStoreWritesTheRegisters : Obligations.BlockStoreWritesTheRegisters := by
  intro x s inside
  have h := exec_ldMemVx_of_inside (x := x) inside
  refine ⟨_, h, fun k hk => exec_read_of_storesByte h (storesByte_ldMemVx_iff.2 ⟨k, hk, rfl, rfl⟩),
    State.indexAfterBlock_blockIndex rfl rfl, by simp, ?_⟩
  refine (((OnlyChanges.refl _ s).storeData_offsets fun k hk => ?_).blockIndex fun moves => ?_).advance (.inl rfl)
  · rw [State.length_regBlock] at hk
    exact .inr (.inr ⟨k, Nat.le_of_lt_succ hk, rfl⟩)
  · exact .inr (.inl ⟨moves ▸ nofun, rfl⟩)

/-- Settles O35: each register up to X has the byte at its distance from the old I, and I moves after the load. -/
theorem blockLoadReadsTheRegisters : Obligations.BlockLoadReadsTheRegisters := by
  intro x s inside
  refine ⟨_, exec_ldVxMem_of_inside inside, fun k hk => ?_, State.indexAfterBlock_blockIndex rfl rfl, by simp, ?_⟩
  · rw [State.reg_advance, State.reg_blockIndex, State.reg_setRegBlock_dataBytes hk]
  · refine (((OnlyChanges.refl _ s).setRegBlock fun k hk => ?_).blockIndex fun moves => ?_).advance (.inl rfl)
    · rw [State.dataBytes, Memory.length_readBytes] at hk
      exact .inr (.inr ⟨k, Nat.le_of_lt_succ hk, rfl⟩)
    · exact .inr (.inl ⟨moves ▸ nofun, rfl⟩)

/-- Settles O31: each copy is one write and the advance. -/
theorem delayTimerMovesCopy : Obligations.DelayTimerMovesCopy := fun x s =>
  ⟨⟨_, rfl, reg_setReg_advance_same s x s.dt, rfl, onlyChanges_setReg_advance s x s.dt⟩,
    ⟨_, rfl, rfl, rfl, ((OnlyChanges.refl _ s).setDt (.inl rfl)).advance (.inr rfl)⟩⟩

/-- Settles O32: the copy only sets st, and the edge is the answer of the Tick port, never of the Step port. -/
theorem soundTimerMoveCopiesWithoutEdge : Obligations.SoundTimerMoveCopiesWithoutEdge :=
  ⟨fun _ s => ⟨_, rfl, rfl, rfl, fun one => transact_tick_of_st_one one,
    ((OnlyChanges.refl _ s).setSt (.inl rfl)).advance (.inr rfl)⟩, transact_step_ne_ticked⟩

end Sys2Proof.Machine

namespace Sys2Proof.Machine

/-! ### When the fetch, a data access and the unknown-opcode path fault -/

section
variable {s : State} {x : Reg} {a : Nat} {w : Word} {f : Fault}

theorem step_of_fetch_outside (outside : LowestOutside s.pc.toNat 2 a) :
    step s = .fault (.addressing a s.pc none) := by
  have fetch : s.fetch = .error (.addressing a s.pc none) := by
    rw [State.fetch, (lowestOutside_iff _ _ _).1 outside]
  rw [step, State.fetch_beginStep, fetch]

/-- A step on a word without an instruction takes the unknown-opcode path (30_encoding.md R92). -/
theorem step_of_decode_error {e : DecodeError} (hf : s.Fetchable)
    (he : decodeWord (BitVec.ofNat 16 s.wordAtPc) = .error e) :
    step s = unknownOpcode (BitVec.ofNat 16 s.wordAtPc) s.beginStep := by
  unfold step
  rw [State.fetch_beginStep, State.fetch_of_fetchable hf]
  simp only [he]

theorem unknownOpcode_of_nonfatal (nonfatal : s.params.unknownOpcodeFatal = false) :
    unknownOpcode w s = .next { s with report := some ⟨s.pc, w⟩, pc := s.pc + 2 } := if_neg (by simp [nonfatal])

theorem unknownOpcode_of_fatal (fatal : s.params.unknownOpcodeFatal = true) :
    unknownOpcode w s = .fault (.unknownOpcode s.pc w) := if_pos fatal

/-! ### What a fault says of the operation that raised it -/

theorem unknownOpcode_fault_cases (h : unknownOpcode w s = .fault f) :
    s.params.unknownOpcodeFatal = true ∧ f = .unknownOpcode s.pc w := by
  unfold unknownOpcode at h
  split at h
  · exact ⟨‹_›, by cases h; rfl⟩
  · cases h

theorem State.checkData_fault {n : Nat} {t : State} (h : s.checkData w n (.next t) = .fault f) :
    ∃ a, 4096 ≤ a ∧ f = .addressing a s.pc (some w) := by
  rw [State.checkData_eq] at h
  split at h
  · cases h
  · exact ⟨_, le_max_right s.i.toNat memSize, by cases h; rfl⟩

theorem exec_call_fault {nnn : Addr12} (h : exec (.call nnn) s = .fault f) :
    s.sp.val = 16 ∧ f = .stackOverflow s.pc (encode (.call nnn)) := by
  simp only [exec, execCall] at h
  split at h
  · cases h
  · exact ⟨by omega, by cases h; rfl⟩

theorem exec_ret_fault (h : exec .ret s = .fault f) : s.sp.val = 0 ∧ f = .stackUnderflow s.pc (encode .ret) := by
  simp only [exec, execRet] at h
  split at h
  · cases h
  · exact ⟨by omega, by cases h; rfl⟩

theorem keyIndex_eq_none {policy : KeyIndexPolicy} {v : Byte} (h : keyIndex policy v = none) :
    policy = .fault ∧ 0x0F < v.toNat := by
  rw [keyIndex_eq] at h
  cases policy with
  | fault =>
    have above : 16 ≤ v.toNat := by simpa using h
    exact ⟨rfl, above⟩
  | lowNibble => simp at h

theorem skipOnKey_fault {pressed : Bool} (h : skipOnKey x pressed w s = .fault f) :
    s.params.keyIndexPolicy = .fault ∧ 0x0F < (s.reg x).toNat ∧ f = .keyIndex s.pc w (s.reg x) := by
  unfold skipOnKey at h
  split at h
  · cases h
  · obtain ⟨policy, above⟩ := keyIndex_eq_none ‹_›
    exact ⟨policy, above, by cases h; rfl⟩

theorem exec_ldVxK_ne_fault : exec (.ldVxK x) s ≠ .fault f := by
  rw [exec, execLdVxK]
  split <;> nofun

/-- A faulting step: the fetch, the fetched instruction at the step entry, or the fatal unknown-opcode path. -/
theorem step_fault_cases (h : step s = .fault f) :
    (¬ s.Fetchable ∧ f = .addressing (max s.pc.toNat memSize) s.pc none) ∨
      (∃ i, s.Fetches i ∧ exec i s.beginStep = .fault f) ∨
      (s.Fetchable ∧ (∃ e, decodeWord (BitVec.ofNat 16 s.wordAtPc) = .error e) ∧
        s.params.unknownOpcodeFatal = true ∧ f = .unknownOpcode s.pc (BitVec.ofNat 16 s.wordAtPc)) := by
  by_cases hf : s.Fetchable
  · cases hd : decodeWord (BitVec.ofNat 16 s.wordAtPc) with
    | ok i => exact .inr (.inl ⟨i, ⟨hf, hd⟩, step_of_fetches ⟨hf, hd⟩ ▸ h⟩)
    | error e =>
      obtain ⟨fatal, rfl⟩ := unknownOpcode_fault_cases (step_of_decode_error hf hd ▸ h)
      exact .inr (.inr ⟨hf, ⟨e, rfl⟩, fatal, rfl⟩)
  · rw [step_of_not_fetchable hf] at h
    exact .inl ⟨hf, by cases h; rfl⟩

/-! ### The Unknown words at pc -/

theorem State.toNat_ofNat_wordAtPc (s : State) : (BitVec.ofNat 16 s.wordAtPc).toNat = s.wordAtPc :=
  Nat.mod_eq_of_lt s.wordAtPc_lt

theorem State.Fetches.encode_eq {i : Instr} (hi : s.Fetches i) : encode i = BitVec.ofNat 16 s.wordAtPc :=
  (decodedWordsEncodeBack _ i hi.2).1

theorem State.Fetches.unknownWord_iff {i : Instr} (hi : s.Fetches i) :
    UnknownWord s.wordAtPc ↔ ∃ nnn, i = .sys nnn := by
  rw [← s.toNat_ofNat_wordAtPc, ← hi.encode_eq]
  exact unknownWord_encode_iff (decodedWordsEncodeBack _ i hi.2).2

theorem unknownWord_of_decode_error {e : DecodeError} (h : decodeWord w = .error e) : UnknownWord w.toNat := by
  have sound := soundDecode_decodeWord w
  rw [h] at sound
  exact sound.2

/-- SYS runs the path that a step on a word without an instruction takes (30_encoding.md R92, 41_control.md R110). -/
theorem step_of_unknownWord (hf : s.Fetchable) (unknown : UnknownWord s.wordAtPc) :
    step s = unknownOpcode (BitVec.ofNat 16 s.wordAtPc) s.beginStep := by
  cases hd : decodeWord (BitVec.ofNat 16 s.wordAtPc) with
  | error e => exact step_of_decode_error hf hd
  | ok i =>
    have hi : s.Fetches i := ⟨hf, hd⟩
    obtain ⟨nnn, rfl⟩ := hi.unknownWord_iff.1 unknown
    rw [step_of_fetches hi, ← hi.encode_eq]
    rfl

/-- Only an Unknown word makes a report (60_exceptions.md R206). -/
theorem step_report_of_not_unknownWord {t : State} (h : step s = .next t) (known : ¬ UnknownWord s.wordAtPc) :
    t.report = none := by
  rcases step_next_fetches h with ⟨i, hi, he⟩ | ⟨-, ⟨e, he⟩, -, -⟩
  · exact exec_onlyChanges he .report (mt hi.unknownWord_iff.2 known)
  · exact absurd (s.toNat_ofNat_wordAtPc ▸ unknownWord_of_decode_error he) known

/-! ### What the Step port leaves -/

theorem transact_step_faulted {t : State} (h : transact .step s = (.stepFaulted f, t)) :
    step s = .fault f ∧ t = s.beginStep := by
  cases hs : step s with
  | next u =>
    rw [transact_step_next hs] at h
    cases h
  | fault g =>
    rw [transact_step_fault hs] at h
    cases h
    exact ⟨rfl, rfl⟩
  | refused r => exact absurd hs (noStepIsRefused s r)

/-- The frame of the Step port, completed or faulted. -/
theorem transact_step_samePart {p : Part} (hp : p ∉ [.pc, .redraw, .report])
    (unwritten : ∀ i, s.Fetches i → ¬ s.Writes i p) : SamePart s (transact .step s).2 p := by
  cases h : step s with
  | next t =>
    rw [transact_step_next h]
    by_contra changed
    obtain ⟨i, hi, hw⟩ := step_changes h p hp changed
    exact unwritten i hi hw
  | fault f => exact onlyChanges_of_step_fault h p (mt (by rintro (rfl | rfl) <;> simp) hp)
  | refused r => exact absurd h (noStepIsRefused s r)

/-- The step entry clears only what the step clears again. -/
theorem step_beginStep (s : State) : step s.beginStep = step s := rfl

end

/-! ### The frame of a tick and of a key event -/

section
variable {W : Part → Prop} {s t : State}

theorem OnlyChanges.tick (h : OnlyChanges W s t) (hdt : W .dt) (hst : W .st) : OnlyChanges W s t.tick :=
  (h.setDt (b := countDown t.dt) hdt).setSt (b := countDown t.st) hst

theorem OnlyChanges.setKey (h : OnlyChanges W s t) {k : Fin 16} {b : Bool} (hk : W (.key k)) :
    OnlyChanges W s (t.setKey k b) := by
  intro p hp
  have same := h p hp
  cases p with
  | key j =>
    have hj : k.val ≠ j.val := fun e => hp (Fin.ext e ▸ hk)
    exact (Vector.getElem_set_ne k.isLt j.isLt hj).trans same
  | _ => exact same

end

/-! ### The timers over the ports -/

theorem countDown_toNat (b : Byte) : (countDown b).toNat = b.toNat - 1 := by
  unfold countDown
  split
  · simp [*]
  · bv_omega

/-- The delay timer after an operation that is no step on LD DT, Vx. -/
def delayAfter (p : Port) (b : Byte) : Byte :=
  match p with
  | .reset => 0
  | .tick => countDown b
  | .loadImage _ | .step | .setKey _ _ | .readFramebuffer | .readRedraw => b

theorem delayAfter_le (p : Port) (b : Byte) : (delayAfter p b).toNat ≤ b.toNat := by
  cases p with
  | reset => exact Nat.zero_le _
  | tick => exact (countDown_toNat b).trans_le (Nat.sub_le _ _)
  | loadImage | step | setKey | readFramebuffer | readRedraw => exact Nat.le_refl _

theorem delayAfter_of_ne {p : Port} (tick : p ≠ .tick) (reset : p ≠ .reset) (b : Byte) : delayAfter p b = b := by
  cases p with
  | reset => exact absurd rfl reset
  | tick => exact absurd rfl tick
  | loadImage | step | setKey | readFramebuffer | readRedraw => rfl

theorem transact_dt {p : Port} {s : State} (unwritten : p = .step → ∀ x, ¬ s.Fetches (.ldDtVx x)) :
    (transact p s).2.dt = delayAfter p s.dt := by
  cases p with
  | step =>
    refine transact_step_samePart (p := .dt) (by simp) ?_
    rintro i hi ⟨x, rfl⟩
    exact unwritten rfl x hi
  | loadImage image =>
    by_cases long : maxImage < image.length <;> simp [transact, State.loadImage, long, delayAfter]
  | reset | tick | setKey | readFramebuffer | readRedraw => rfl

section
variable {sched : Schedule} {s : State} (unwritten : NoDelayWrite sched s)
include unwritten

theorem stateAt_succ_dt (n : Nat) :
    (stateAt sched s (n + 1)).dt = delayAfter (sched n) (stateAt sched s n).dt :=
  transact_dt (unwritten n)

theorem stateAt_dt_antitone : Antitone fun n => (stateAt sched s n).dt.toNat :=
  antitone_nat_of_succ_le fun n => by
    rw [stateAt_succ_dt unwritten]
    exact delayAfter_le _ _

/-- Each tick of a fair driver takes one from the delay timer, and no operation gives it back. -/
theorem exists_stateAt_dt_le (fair : FairTicks sched) (k : Nat) :
    ∃ n, (stateAt sched s n).dt.toNat ≤ s.dt.toNat - k := by
  induction k with
  | zero => exact ⟨0, Nat.le_refl _⟩
  | succ k ih =>
    obtain ⟨n, hn⟩ := ih
    obtain ⟨m, hnm, tick⟩ := fair n
    have low : (stateAt sched s m).dt.toNat ≤ s.dt.toNat - k := (stateAt_dt_antitone unwritten hnm).trans hn
    have less : (stateAt sched s (m + 1)).dt.toNat = (stateAt sched s m).dt.toNat - 1 := by
      rw [stateAt_succ_dt unwritten, tick, delayAfter, countDown_toNat]
    exact ⟨m + 1, by omega⟩

end

/-! ### The obligations of 60_exceptions.md -/

/-- Settles O60: after as many ticks as dt counts it is 0 and stays so; without tick and reset each operation keeps
it. -/
theorem delayWaitEndsExactlyWithTicks : Obligations.DelayWaitEndsExactlyWithTicks := by
  refine ⟨fun sched s fair unwritten => ?_, fun sched s noTick noReset unwritten n => ?_⟩
  · obtain ⟨n, hn⟩ := exists_stateAt_dt_le unwritten fair s.dt.toNat
    refine ⟨n, fun m hm => BitVec.eq_of_toNat_eq (Nat.eq_zero_of_le_zero ?_)⟩
    calc (stateAt sched s m).dt.toNat ≤ (stateAt sched s n).dt.toNat := stateAt_dt_antitone unwritten hm
      _ ≤ s.dt.toNat - s.dt.toNat := hn
      _ = 0 := Nat.sub_self _
  · induction n with
    | zero => rfl
    | succ n ih => rw [stateAt_succ_dt unwritten, delayAfter_of_ne (noTick n) (noReset n), ih]

/-- Settles O6: an Unknown word takes the unknown-opcode path, by the two values of UNKNOWN_OPCODE_FATAL. -/
theorem unknownWordReportsAndContinues : Obligations.UnknownWordReportsAndContinues := by
  refine ⟨rfl, fun s t h known => ?_, fun s w hf hw unknown => ?_⟩
  · rw [transact_step_next h, step_report_of_not_unknownWord h known]
    rfl
  obtain rfl : w = BitVec.ofNat 16 s.wordAtPc := BitVec.eq_of_toNat_eq (hw.trans s.toNat_ofNat_wordAtPc.symm)
  have path := step_of_unknownWord hf (hw ▸ unknown)
  refine ⟨fun nonfatal => ?_, fun fatal => ?_⟩
  · have h := path.trans (unknownOpcode_of_nonfatal nonfatal)
    refine ⟨_, h, pc_add_toNat hf (d := 2) (by decide), rfl, rfl, ?_, transact_step_next h, rfl⟩
    exact ((OnlyChanges.refl _ s).beginStep (.inr (.inr rfl)) (.inr (.inl rfl))).reportAndJump (.inr (.inl rfl))
      (.inl rfl)
  · have h := path.trans (unknownOpcode_of_fatal fatal)
    exact ⟨h, transact_step_fault h, (OnlyChanges.refl _ s).beginStep (.inr rfl) (.inl rfl)⟩

/-- Settles O27: the fetch at the step entry, and the one check of every data access. -/
theorem accessOutsideMemoryFaults : Obligations.AccessOutsideMemoryFaults := fun _ _ =>
  ⟨step_of_fetch_outside, fun _ _ _ outside => State.checkData_of_outside outside _,
    fun _ => exec_ldB_of_outside, fun _ outside => State.checkData_of_outside outside _,
    fun _ outside => State.checkData_of_outside outside _⟩

/-- Settles O38: a fetch fault, the fatal unknown-opcode path, or a fault of the fetched instruction, one by one; the
instruction's encoding is the fetched word. -/
theorem eachFaultHasItsCause : Obligations.EachFaultHasItsCause := by
  intro s f h
  rcases step_fault_cases h with ⟨hf, rfl⟩ | ⟨i, hi, he⟩ | ⟨hf, ⟨e, he⟩, fatal, rfl⟩
  · exact ⟨rfl, le_max_right _ _, .inl ⟨hf, rfl⟩⟩
  · have word := hi.encode_eq
    cases i with
    | call nnn =>
      obtain ⟨full, rfl⟩ := exec_call_fault he
      exact ⟨rfl, word, full, nnn, hi⟩
    | ret =>
      obtain ⟨empty, rfl⟩ := exec_ret_fault he
      exact ⟨rfl, word, empty, hi⟩
    | sys nnn =>
      obtain ⟨fatal, rfl⟩ := unknownOpcode_fault_cases he
      exact ⟨rfl, word, hi.1, hi.unknownWord_iff.2 ⟨nnn, rfl⟩, fatal⟩
    | skp x =>
      obtain ⟨policy, above, rfl⟩ := skipOnKey_fault he
      exact ⟨rfl, word, policy, above, x, rfl, .inl hi⟩
    | sknp x =>
      obtain ⟨policy, above, rfl⟩ := skipOnKey_fault he
      exact ⟨rfl, word, policy, above, x, rfl, .inr hi⟩
    | drw x y n =>
      obtain ⟨a, ha, rfl⟩ := State.checkData_fault he
      exact ⟨rfl, ha, .inr ⟨congrArg some word, .inl ⟨x, y, n, hi⟩⟩⟩
    | ldB x =>
      obtain ⟨a, ha, rfl⟩ := State.checkData_fault he
      exact ⟨rfl, ha, .inr ⟨congrArg some word, .inr (.inl ⟨x, hi⟩)⟩⟩
    | ldMemVx x =>
      obtain ⟨a, ha, rfl⟩ := State.checkData_fault he
      exact ⟨rfl, ha, .inr ⟨congrArg some word, .inr (.inr (.inl ⟨x, hi⟩))⟩⟩
    | ldVxMem x =>
      obtain ⟨a, ha, rfl⟩ := State.checkData_fault he
      exact ⟨rfl, ha, .inr ⟨congrArg some word, .inr (.inr (.inr ⟨x, hi⟩))⟩⟩
    | ldVxK x => exact absurd he exec_ldVxK_ne_fault
    | _ => cases he
  · exact ⟨rfl, rfl, hf, s.toNat_ofNat_wordAtPc ▸ unknownWord_of_decode_error he, fatal⟩

/-- Settles O37: a faulting step leaves its entry, whose step is the same. -/
theorem faultsArePreciseAndRepeat : Obligations.FaultsArePreciseAndRepeat := by
  intro s t f h
  obtain ⟨hs, rfl⟩ := transact_step_faulted h
  exact ⟨rfl, (OnlyChanges.refl _ s).beginStep (.inl rfl) (.inr rfl),
    transact_step_fault ((step_beginStep s).trans hs)⟩

/-- Settles O40: each timer is counted down, and the edge is the answer at st = 1. -/
theorem tickDecrementsBothTimers : Obligations.TickDecrementsBothTimers := by
  intro s
  have edge : s.soundEdge = decide (s.st.toNat = 1) := by
    rw [State.soundEdge, Bool.eq_iff_iff, beq_iff_eq, decide_eq_true_iff, ← BitVec.toNat_inj]
    rfl
  exact ⟨s.tick, by rw [transact, edge], countDown_toNat s.dt, countDown_toNat s.st,
    (OnlyChanges.refl _ s).tick (.inl rfl) (.inr rfl)⟩

/-- Settles O41: the frame of a key event, at its own flag; the reads return the state they got. -/
theorem keyAndDisplayPortsTouchOnlyTheirState : Obligations.KeyAndDisplayPortsTouchOnlyTheirState := by
  refine ⟨fun s k b => ⟨Vector.getElem_set_self k.isLt, ?_⟩, fun s => ⟨rfl, rfl⟩⟩
  exact (OnlyChanges.refl _ s).setKey rfl

/-- Settles O59: the answer of the Step port by the outcome of the step, and the code of each fault. -/
theorem stepAnswersItsResultAndCode : Obligations.StepAnswersItsResultAndCode := by
  refine fun s => ⟨fun t h => ?_, fun f h => ?_⟩
  · rw [transact_step_next h]
    exact ⟨rfl, rfl, fun _ _ => rfl⟩
  · rw [transact_step_fault h]
    cases f <;> exact ⟨rfl, rfl⟩

end Sys2Proof.Machine

namespace Sys2Proof.Machine

/-! ### A store of consecutive bytes, inside and outside its range -/

section
variable {m : Memory} {base : Nat} {bytes : List Byte}

theorem Memory.read_writeBytes_of_lt {k : Nat} (hk : k < bytes.length) (old : Byte) :
    (m.writeBytes base bytes).read (base + k) = bytes.getD k old := by
  rw [Memory.read_writeBytes, if_pos (Nat.le_add_right _ _), Nat.add_sub_cancel_left,
    List.getD_eq_getElem _ _ hk, List.getD_eq_getElem _ _ hk]

theorem Memory.read_writeBytes_of_ne {a : Nat} (outside : ∀ k < bytes.length, a ≠ base + k) :
    (m.writeBytes base bytes).read a = m.read a := by
  rw [Memory.read_writeBytes]
  split
  · have beyond : bytes.length ≤ a - base := by
      by_contra inside
      exact outside (a - base) (by omega) (by omega)
    exact List.getD_eq_default _ _ beyond
  · rfl

/-- The frame of a store of consecutive bytes at any address. -/
theorem OnlyChanges.writeBytes {W : Part → Prop} {s t : State} (h : OnlyChanges W s t)
    (hb : ∀ k < bytes.length, W (.byte (base + k))) :
    OnlyChanges W s { t with mem := t.mem.writeBytes base bytes } := by
  intro p hp
  have same := h p hp
  cases p with
  | byte a =>
    have outside : ∀ k < bytes.length, a ≠ base + k := fun k hk e => hp (e ▸ hb k hk)
    exact (Memory.read_writeBytes_of_ne outside).trans same
  | _ => exact same

end

/-! ### The loader -/

section
variable {image : List Byte} (s : State)

theorem transact_loadImage_of_fits (fits : image.length ≤ maxImage) :
    transact (.loadImage image) s = (.loaded, { s with mem := s.mem.writeBytes loadBase image }) := by
  rw [transact, State.loadImage, if_neg (Nat.not_lt.2 fits)]

theorem transact_loadImage_of_long (long : maxImage < image.length) :
    transact (.loadImage image) s = (.loadRefused, s) := by
  rw [transact, State.loadImage, if_pos long]

end

/-- Settles O42: the loader by its length check; an accepted image is one store of consecutive bytes. -/
theorem loaderCopiesOrRefusesWhole : Obligations.LoaderCopiesOrRefusesWhole := by
  refine fun s image => ⟨fun fits => ?_, transact_loadImage_of_long s⟩
  exact ⟨_, transact_loadImage_of_fits s fits, fun k hk => Memory.read_writeBytes_of_lt hk 0,
    (OnlyChanges.refl _ s).writeBytes fun k hk => ⟨k, hk, rfl⟩⟩

/-! ### The self-jump -/

section
variable {s : State}

/-- An instruction whose word stands at pc is the one fetched. -/
theorem fetches_of_encode_eq_wordAtPc {i : Instr} (hi : i.wellFormed = true) (hf : s.Fetchable)
    (word : (encode i).toNat = s.wordAtPc) : s.Fetches i := by
  refine ⟨hf, ?_⟩
  rw [← word, BitVec.ofNat_toNat, BitVec.setWidth_eq]
  exact decodeWord_encode hi

/-- A terminal state fetches JP to its own pc: a fetchable pc is below 4096, so it is a 12-bit address. -/
theorem State.Terminal.fetches_jp (h : s.Terminal) : ∃ nnn : Addr12, nnn.toNat = s.pc.toNat ∧ s.Fetches (.jp nnn) := by
  obtain ⟨hf, word⟩ := h
  have low : s.pc.toNat < 4096 := Nat.lt_of_succ_lt hf
  have target : (BitVec.ofNat 12 s.pc.toNat).toNat = s.pc.toNat := Nat.mod_eq_of_lt low
  refine ⟨_, target, fetches_of_encode_eq_wordAtPc rfl hf ?_⟩
  calc (encode (.jp (BitVec.ofNat 12 s.pc.toNat))).toNat
      _ = 0x1000 + (BitVec.ofNat 12 s.pc.toNat).toNat := packAddr_toNat 0x1 _
      _ = s.wordAtPc := by rw [target, word]

/-- The step of a terminal state is the clearing at its entry alone (70_reset_and_hazards.md R244). -/
theorem State.Terminal.step_eq (h : s.Terminal) : step s = .next s.beginStep := by
  obtain ⟨nnn, self, hi⟩ := h.fetches_jp
  obtain ⟨t, runs, -, -, -, stays⟩ := jpSetsOnlyPc nnn s.beginStep
  rw [step_of_fetches hi, runs, stays self]

end

/-- Settles O58: the step leaves its entry, which has the pc and the memory of the state and is terminal with it. -/
theorem terminalStatesStayAsTheyAre : Obligations.TerminalStatesStayAsTheyAre := fun s h =>
  ⟨s.beginStep, h.step_eq, h, rfl, (OnlyChanges.refl _ s).beginStep (.inl rfl) (.inr rfl)⟩

end Sys2Proof.Machine
